-- ==== Sys2Proof/Word.lean ====
section
/-! DEFINITION. Word.lean: the widths of the encoder's values (00_scope.md R9; 20_memory.md R41; 30_encoding.md R62).
Every value is unsigned; the encoder has no signed quantity. -/

namespace Sys2Proof

/-- A byte, bit 7 the most significant (R9). -/
abbrev Byte := BitVec 8

/-- The operand of a single nibble write (41_initialize.md R101). -/
abbrev Nibble := BitVec 4

/-- The 7-bit bus address (20_memory.md R41). -/
abbrev BusAddr := BitVec 7

/-- The 20-bit request word `op[19:16] a[15:8] b[7:0]` (30_encoding.md R62). -/
abbrev ReqWord := BitVec 20

end Sys2Proof
end

