-- ==== Sys2Proof/Config.lean ====
section
/-! DEFINITION. Config.lean: what an implementation of the encoder fixes: the parameter table of 00_scope.md R7, one named
field per row, so that a claim can quantify over every one of them; and the two open values that have no default anywhere in
the spec (opaque constants). The DEFAULT values stand in Machine/Defaults.lean. -/

namespace Sys2Proof

/-- Word width, `CFG.ww` (10_state.md R21). -/
inductive WordWidth
  | w4
  | w8
deriving DecidableEq, Repr

/-- Line count, `CFG.lc` (10_state.md R21). -/
inductive LineCount
  | l1
  | l2
deriving DecidableEq, Repr

/-- Matrix size, `CFG.ms` (10_state.md R21). -/
inductive Matrix
  | m5x8
  | m5x10
deriving DecidableEq, Repr

/-- The configuration register `CFG`, and the three straps it is loaded from (10_state.md R21, R22). -/
structure Cfg where
  ww : WordWidth
  lc : LineCount
  ms : Matrix
deriving DecidableEq, Repr

/-- The display-state register `DISP` (10_state.md R23). -/
structure Disp where
  power  : Bool
  cursor : Bool
  blink  : Bool
deriving DecidableEq, Repr

/-- `BusErr`, the error value a failed bus write reports (60_exceptions.md R171). The spec leaves the type open and names
three values as examples; `other` stands for every further value. The encoder never inspects one. -/
inductive BusErr
  | deviceNotFound
  | ioError
  | addressNotAcknowledged
  | other (code : Nat)
deriving DecidableEq, Repr

/-- The four delay parameters, by name (44_pipeline.md R155). -/
inductive Hold
  | tEn
  | tPost
  | tCmd
  | tSettle
deriving DecidableEq, Repr

/-- The parameters of 00_scope.md R7, in the order of its table. Times are in nanoseconds. -/
structure Params where
  opbClear   : Byte
  opbHome    : Byte
  opbEntry   : Byte
  opbDispctl : Byte
  opbShift   : Byte
  opbFset    : Byte
  opbCgram   : Byte
  opbDdram   : Byte
  fsW4       : Byte
  fsW8       : Byte
  fsL1       : Byte
  fsL2       : Byte
  fsM5x8     : Byte
  fsM5x10    : Byte
  emLeft     : Byte
  emRight    : Byte
  shOff      : Byte
  shOn       : Byte
  dcPower    : Byte
  dcCursor   : Byte
  dcBlink    : Byte
  rsBit      : Byte
  rwBit      : Byte
  enBit      : Byte
  blBit      : Byte
  row1Base   : Byte
  row2Base   : Byte
  row3Base   : Byte
  row4Base   : Byte
  tEn        : Nat
  tPost      : Nat
  tCmd       : Nat
  tSettle    : Nat
  i2cAddr    : BusAddr
  /-- `WORD_WIDTH`, `LINE_COUNT`, `MATRIX`: the three straps, sampled at reset. -/
  straps     : Cfg
  /-- `DISP_RESET`. -/
  dispReset  : Disp
  /-- `BL_RESET`. -/
  blReset    : Bool
  /-- `TEXT_MAX`: the longest text operand accepted; `none` is unbounded. -/
  textMax    : Option Nat
deriving DecidableEq, Repr

/-- `I2C_ADDR` is OPEN (R7; 92_eei_decisions.md has no value): a free constant, nothing constrains it. Log entry 3. -/
opaque Config.i2cAddr : BusAddr

/-- `T_CMD` is OPEN, `≥ 0` (R7, R207, decision D8): a free constant in nanoseconds. Log entry 3. -/
opaque Config.tCmd : Nat

end Sys2Proof
end

