-- ==== Sys2Proof/Syntax.lean ====
section
/-! DEFINITION. Syntax.lean: the instructions. One constructor per row of spec/opcode_table.json: the ten request operations
(30_encoding.md R60, R62, format REQ20) and the eight command bytes (R64 to R71, format CMD8). -/

namespace Sys2Proof

/-- Direction operand of `ENTRY` (42_state_operations.md R117). -/
inductive Dir
  | left
  | right
deriving DecidableEq, Repr

/-- Shift operand of `ENTRY` (42_state_operations.md R117). -/
inductive Shift
  | noShift
  | shift
deriving DecidableEq, Repr

/-- The source's `mode`: a command byte (register-select clear) or a data byte (register-select set) (30_encoding.md R63). -/
inductive Rs
  | cmd
  | data
deriving DecidableEq, Repr

/-- The operand `k` of `CMD`: the eight HD44780 opcodes, `k` = 0 to 7 in this order (30_encoding.md R64, R82). -/
inductive Opcode
  | clearDisplay
  | returnHome
  | entryModeSet
  | displayControl
  | cursorShift
  | functionSet
  | setCgramAddr
  | setDdramAddr
deriving DecidableEq, Repr

/-- What the encoder is asked to do. The first ten constructors are the requests of R60. The last eight are the command bytes
of R64: the encoder is asked to transmit that command byte (log entry 1); their fields are the opcode table's. -/
inductive Instr
  | init
  | clear
  | entry (dir : Dir) (sh : Shift)
  | power (on : Bool)
  | cursor (on : Bool)
  | blink (on : Bool)
  | backlight (on : Bool)
  | text (row col : Byte) (chars : List Byte)
  | cmd (k : Opcode) (data : Byte)
  | write (byte : Byte) (rs : Rs)
  | clearDisplay
  | returnHome
  | entryModeSet (d s : Bool)
  | displayControl (p c b : Bool)
  | cursorShift (s r : Bool) (x : BitVec 2)
  | functionSet (w l m : Bool) (x : BitVec 2)
  | setCgramAddr (a : BitVec 6)
  | setDdramAddr (a : BitVec 7)
deriving DecidableEq, Repr

/-- What the host presents at the request port: a request word with its side operand `text` (R62), or one command byte in the
CMD8 format of the opcode table (log entry 1). -/
inductive PortItem
  | word (w : ReqWord) (text : List Byte)
  | commandByte (b : Byte)
deriving DecidableEq, Repr

/-- The pseudo-instructions of 30_encoding.md R83. -/
inductive Pseudo
  | entryDir (dir : Dir)
  | home
  | goto (row col : Byte)
  | putc (byte : Byte)
deriving DecidableEq, Repr

end Sys2Proof
end

