-- ==== Sys2Proof/WellFormed.lean ====
section
/-! DEFINITION. WellFormed.lean: the checks on parameters (00_scope.md R8), on instructions (`TEXT_MAX`, decision D11) and on
what stands at the request port (30_encoding.md R62: only `TEXT` has a side operand). -/

namespace Sys2Proof

/-- Exactly one bit of the byte is set. -/
def oneBit (b : Byte) : Bool :=
  [0x01#8, 0x02#8, 0x04#8, 0x08#8, 0x10#8, 0x20#8, 0x40#8, 0x80#8].contains b

/-- The four overlay bits, in the order of R8. -/
def Params.overlayBits (p : Params) : List Byte := [p.rsBit, p.rwBit, p.enBit, p.blBit]

/-- The eight opcode bases, `k` = 0 to 7 (R64). -/
def Params.bases (p : Params) : List Byte :=
  [p.opbClear, p.opbHome, p.opbEntry, p.opbDispctl, p.opbShift, p.opbFset, p.opbCgram, p.opbDdram]

/-- R8 (a): four distinct masks with exactly one bit set each. -/
def Params.overlaysDistinct (p : Params) : Bool :=
  p.overlayBits.all oneBit && decide p.overlayBits.Nodup

/-- R8 (b): all four lie within `0x0F`. -/
def Params.overlaysLow (p : Params) : Bool :=
  p.overlayBits.all fun b => b &&& 0xF0 == 0

/-- R8 (c): each opcode base has exactly one bit set and the eight bases are distinct. -/
def Params.basesDistinct (p : Params) : Bool :=
  p.bases.all oneBit && decide p.bases.Nodup

/-- R8, all three clauses. -/
def Params.wf (p : Params) : Bool := p.overlaysDistinct && p.overlaysLow && p.basesDistinct

/-- A text of this length is accepted under `TEXT_MAX` (decision D11, 93_implementation_defined.md U15). -/
def textFits (textMax : Option Nat) (chars : List Byte) : Bool :=
  match textMax with
  | none => true
  | some m => chars.length ≤ m

/-- An instruction is well-formed when its operands are ones the encoder accepts. Widths are in the types; what is left to
check is the length of the text operand. -/
def Instr.wf (textMax : Option Nat) : Instr → Bool
  | .init => true
  | .clear => true
  | .entry _ _ => true
  | .power _ => true
  | .cursor _ => true
  | .blink _ => true
  | .backlight _ => true
  | .text _ _ chars => textFits textMax chars
  | .cmd _ _ => true
  | .write _ _ => true
  | .clearDisplay => true
  | .returnHome => true
  | .entryModeSet _ _ => true
  | .displayControl _ _ _ => true
  | .cursorShift _ _ _ => true
  | .functionSet _ _ _ _ => true
  | .setCgramAddr _ => true
  | .setDdramAddr _ => true

/-- Only a `TEXT` word (`op` = 7) comes with a side operand. -/
def PortItem.wf : PortItem → Bool
  | .word w text => text.isEmpty || w.extractLsb' 16 4 == 7
  | .commandByte _ => true

end Sys2Proof
end

