-- ==== Sys2Proof/Decode.lean ====
section
/-! DEFINITION. Decode.lean: from the bits at the request port to an instruction or a rejection by name, and back. The request
word is 30_encoding.md R62 (match and mask of its table); a command byte is decoded by its highest set bit, as the rows R65 to
R71 of the opcode table and R79 give it. -/

namespace Sys2Proof

/-- Why a word is no instruction. -/
inductive DecodeReject
  /-- `op` is `0xA` to `0xF` (R78). -/
  | reservedOp
  /-- A "must be 0" bit of R62 is 1 (R78). -/
  | mustBeZero
  /-- The command byte `0x00` is no instruction (R79). -/
  | zeroCommandByte
  /-- The command byte `0x03` is in no row: the return-home byte is `0x02` and has no payload (R65). -/
  | noCommandRow
deriving DecidableEq, Repr

/-- What the decoder answers. -/
inductive Decoded
  | instr (i : Instr)
  | rejected (why : DecodeReject)
deriving DecidableEq, Repr

/-- The instruction of an answer, if there is one. -/
def Decoded.toOption : Decoded → Option Instr
  | .instr i => some i
  | .rejected _ => none

/-! ### The fields of a request word (R62) -/

def reqOp (w : ReqWord) : BitVec 4 := w.extractLsb' 16 4
def reqA (w : ReqWord) : Byte := w.extractLsb' 8 8
def reqB (w : ReqWord) : Byte := w.extractLsb' 0 8

/-- `op` in bits 19 to 16, `a` in bits 15 to 8, `b` in bits 7 to 0 (R62). -/
def reqWord (op : BitVec 4) (a b : Byte) : ReqWord :=
  (op.setWidth 20 <<< 16) ||| (a.setWidth 20 <<< 8) ||| b.setWidth 20

/-! ### Operand fields -/

/-- `b[1]` of `ENTRY`: 1 is `LEFT` (R62). -/
def Dir.ofBit : Bool → Dir
  | true => .left
  | false => .right

def Dir.toBit : Dir → Bool
  | .left => true
  | .right => false

/-- `b[0]` of `ENTRY`: 1 is `SHIFT` (R62). -/
def Shift.ofBit : Bool → Shift
  | true => .shift
  | false => .noShift

def Shift.toBit : Shift → Bool
  | .shift => true
  | .noShift => false

/-- `a[0]` of `WRITE`: 0 command, 1 data (R62, R142). -/
def Rs.ofBit : Bool → Rs
  | true => .data
  | false => .cmd

def Rs.toBit : Rs → Bool
  | .data => true
  | .cmd => false

/-- `k` = 0 to 7, in the order of R64. -/
def Opcode.ofBits (k : BitVec 3) : Opcode :=
  match k.toNat with
  | 0 => .clearDisplay
  | 1 => .returnHome
  | 2 => .entryModeSet
  | 3 => .displayControl
  | 4 => .cursorShift
  | 5 => .functionSet
  | 6 => .setCgramAddr
  | _ => .setDdramAddr

def Opcode.toBits : Opcode → BitVec 3
  | .clearDisplay => 0
  | .returnHome => 1
  | .entryModeSet => 2
  | .displayControl => 3
  | .cursorShift => 4
  | .functionSet => 5
  | .setCgramAddr => 6
  | .setDdramAddr => 7

/-- A single bit at the bottom of a byte. -/
def bitByte (on : Bool) : Byte := if on then 1 else 0

/-! ### Decoding -/

/-- R62: the request a word stands for. A side operand is taken by `TEXT` and ignored by every other word (log entry 8). -/
def decodeRequest (w : ReqWord) (text : List Byte) : Decoded :=
  match (reqOp w).toNat with
  | 0 => if reqA w = 0 ∧ reqB w = 0 then .instr .init else .rejected .mustBeZero
  | 1 => if reqA w = 0 ∧ reqB w = 0 then .instr .clear else .rejected .mustBeZero
  | 2 => if reqA w = 0 ∧ reqB w &&& 0xFC = 0 then
           .instr (.entry (Dir.ofBit ((reqB w).getLsbD 1)) (Shift.ofBit ((reqB w).getLsbD 0)))
         else .rejected .mustBeZero
  | 3 => if reqA w = 0 ∧ reqB w &&& 0xFE = 0 then .instr (.power ((reqB w).getLsbD 0)) else .rejected .mustBeZero
  | 4 => if reqA w = 0 ∧ reqB w &&& 0xFE = 0 then .instr (.cursor ((reqB w).getLsbD 0)) else .rejected .mustBeZero
  | 5 => if reqA w = 0 ∧ reqB w &&& 0xFE = 0 then .instr (.blink ((reqB w).getLsbD 0)) else .rejected .mustBeZero
  | 6 => if reqA w = 0 ∧ reqB w &&& 0xFE = 0 then .instr (.backlight ((reqB w).getLsbD 0)) else .rejected .mustBeZero
  | 7 => .instr (.text (reqA w) (reqB w) text)
  | 8 => if reqA w &&& 0xF8 = 0 then .instr (.cmd (Opcode.ofBits ((reqA w).extractLsb' 0 3)) (reqB w))
         else .rejected .mustBeZero
  | 9 => if reqA w &&& 0xFE = 0 then .instr (.write (reqB w) (Rs.ofBit ((reqA w).getLsbD 0)))
         else .rejected .mustBeZero
  | _ => .rejected .reservedOp

/-- R65 to R71: the command byte, by its highest set bit (R79); a byte in none of the eight rows is rejected. -/
def decodeCommandByte (b : Byte) : Decoded :=
  if b.getLsbD 7 then .instr (.setDdramAddr (b.extractLsb' 0 7))
  else if b.getLsbD 6 then .instr (.setCgramAddr (b.extractLsb' 0 6))
  else if b.getLsbD 5 then .instr (.functionSet (b.getLsbD 4) (b.getLsbD 3) (b.getLsbD 2) (b.extractLsb' 0 2))
  else if b.getLsbD 4 then .instr (.cursorShift (b.getLsbD 3) (b.getLsbD 2) (b.extractLsb' 0 2))
  else if b.getLsbD 3 then .instr (.displayControl (b.getLsbD 2) (b.getLsbD 1) (b.getLsbD 0))
  else if b.getLsbD 2 then .instr (.entryModeSet (b.getLsbD 1) (b.getLsbD 0))
  else if b.getLsbD 1 then if b.getLsbD 0 then .rejected .noCommandRow else .instr .returnHome
  else if b.getLsbD 0 then .instr .clearDisplay
  else .rejected .zeroCommandByte

/-- What stands at the request port, decoded. Total: every item gives an instruction or a named rejection. -/
def decodeItem : PortItem → Decoded
  | .word w text => decodeRequest w text
  | .commandByte b => decodeCommandByte b

/-- The port item for the bits `w` of an opcode-table row of `nbits` bits (in whole bytes): 8 is a command byte (CMD8), up to
24 is a request word (REQ20, whose four pad bits 23 to 20 must be 0) with the empty text. -/
def tableItem (nbits w : Nat) : Option PortItem :=
  if nbits ≤ 8 then
    if w < 256 then some (.commandByte (BitVec.ofNat 8 w)) else none
  else if nbits ≤ 24 then
    if w < 1048576 then some (.word (BitVec.ofNat 20 w) []) else none
  else none

/-- The instruction the decoder reads from an opcode-table word. -/
def decodeTableWord (nbits w : Nat) : Option Instr :=
  match tableItem nbits w with
  | some item => (decodeItem item).toOption
  | none => none

/-! ### Encoding -/

/-- The request words (R62) and command bytes (R65 to R71) of an instruction. -/
def encode : Instr → PortItem
  | .init => .word (reqWord 0x0 0 0) []
  | .clear => .word (reqWord 0x1 0 0) []
  | .entry dir sh => .word (reqWord 0x2 0 ((bitByte dir.toBit <<< 1) ||| bitByte sh.toBit)) []
  | .power on => .word (reqWord 0x3 0 (bitByte on)) []
  | .cursor on => .word (reqWord 0x4 0 (bitByte on)) []
  | .blink on => .word (reqWord 0x5 0 (bitByte on)) []
  | .backlight on => .word (reqWord 0x6 0 (bitByte on)) []
  | .text row col chars => .word (reqWord 0x7 row col) chars
  | .cmd k data => .word (reqWord 0x8 (0#5 ++ k.toBits) data) []
  | .write byte rs => .word (reqWord 0x9 (bitByte rs.toBit) byte) []
  | .clearDisplay => .commandByte 0b00000001
  | .returnHome => .commandByte 0b00000010
  | .entryModeSet d s => .commandByte (0b000001#6 ++ BitVec.ofBool d ++ BitVec.ofBool s)
  | .displayControl p c b => .commandByte (0b00001#5 ++ BitVec.ofBool p ++ BitVec.ofBool c ++ BitVec.ofBool b)
  | .cursorShift s r x => .commandByte (0b0001#4 ++ BitVec.ofBool s ++ BitVec.ofBool r ++ x)
  | .functionSet w l m x => .commandByte (0b001#3 ++ BitVec.ofBool w ++ BitVec.ofBool l ++ BitVec.ofBool m ++ x)
  | .setCgramAddr a => .commandByte (0b01#2 ++ a)
  | .setDdramAddr a => .commandByte (0b1#1 ++ a)

/-! ### The opcode table as rows of mask and pattern (R62, R65 to R71) -/

/-- One row: a word is the row's when `word &&& mask = pattern`. -/
structure Row (n : Nat) where
  mask    : BitVec n
  pattern : BitVec n
deriving DecidableEq, Repr

def Row.holds {n : Nat} (r : Row n) (w : BitVec n) : Bool := w &&& r.mask == r.pattern

/-- The ten REQ20 rows, `op` = 0 to 9 (the match and mask columns of R62). -/
def requestRows : List (Row 20) :=
  [⟨0xFFFFF, 0x00000⟩, ⟨0xFFFFF, 0x10000⟩, ⟨0xFFFFC, 0x20000⟩, ⟨0xFFFFE, 0x30000⟩, ⟨0xFFFFE, 0x40000⟩] ++
  [⟨0xFFFFE, 0x50000⟩, ⟨0xFFFFE, 0x60000⟩, ⟨0xF0000, 0x70000⟩, ⟨0xFF800, 0x80000⟩, ⟨0xFFE00, 0x90000⟩]

/-- The eight CMD8 rows, `k` = 0 to 7 (R65 to R71). -/
def commandRows : List (Row 8) :=
  [⟨0xFF, 0x01⟩, ⟨0xFF, 0x02⟩, ⟨0xFC, 0x04⟩, ⟨0xF8, 0x08⟩] ++
  [⟨0xF0, 0x10⟩, ⟨0xE0, 0x20⟩, ⟨0xC0, 0x40⟩, ⟨0x80, 0x80⟩]

/-- The item is one of the table's rows. -/
def PortItem.inTable : PortItem → Bool
  | .word w _ => requestRows.any (·.holds w)
  | .commandByte b => commandRows.any (·.holds b)

/-! ### Pseudo-instructions -/

/-- R83: each pseudo-instruction's expansion. -/
def Pseudo.expand : Pseudo → Instr
  | .entryDir dir => .entry dir .noShift
  | .home => .cmd .returnHome 0
  | .goto row col => .text row col []
  | .putc byte => .write byte .data

end Sys2Proof
end

