-- ==== Sys2Proof/Machine/Defaults.lean ====
section
/-! DEFINITION. Machine/Defaults.lean: the default value of every parameter (the value column of 00_scope.md R7). "src" values
are the source's; "GK" values are the spec's general knowledge, each a parameter that a claim can vary. Parameters the spec
leaves OPEN: log entries 3 (address, T_CMD), 4 (straps, backlight), 9 (TEXT_MAX). -/

namespace Sys2Proof

/-- The straps a machine is reset with when nothing else is said: {W4, L2, 5×8}, the configuration of the source's worked
scenario and of 95_test_vectors.md. DESIGN CHOICE (log entry 4): the spec leaves the straps OPEN. -/
def defaultStraps : Cfg := ⟨.w4, .l2, .m5x8⟩

/-- `DISP_RESET`: power on, cursor off, blink off (10_state.md R31, decision D6). -/
def defaultDisp : Disp := ⟨true, false, false⟩

/-- `BL_RESET` is OPEN (decision D7). DESIGN CHOICE (log entry 4): off. -/
def defaultBacklight : Bool := false

/-- The parameter table of R7. -/
def Params.standard : Params where
  opbClear   := 0x01
  opbHome    := 0x02
  opbEntry   := 0x04
  opbDispctl := 0x08
  opbShift   := 0x10
  opbFset    := 0x20
  opbCgram   := 0x40
  opbDdram   := 0x80
  fsW4       := 0x00
  fsW8       := 0x10
  fsL1       := 0x00
  fsL2       := 0x08
  fsM5x8     := 0x00
  fsM5x10    := 0x04
  emLeft     := 0x02
  emRight    := 0x00
  shOff      := 0x00
  shOn       := 0x01
  dcPower    := 0x04
  dcCursor   := 0x02
  dcBlink    := 0x01
  rsBit      := 0x01
  rwBit      := 0x02
  enBit      := 0x04
  blBit      := 0x08
  row1Base   := 0x00
  row2Base   := 0x40
  row3Base   := 0x14
  row4Base   := 0x54
  tEn        := 50000
  tPost      := 10000
  tCmd       := Config.tCmd
  tSettle    := 200000000
  i2cAddr    := Config.i2cAddr
  straps     := defaultStraps
  dispReset  := defaultDisp
  blReset    := defaultBacklight
  textMax    := none

/-- Every encoding value (the bases, fragments, overlay bits and row bases) is the default of R7; the times, the bus address,
the straps, the reset flags and `TEXT_MAX` may be anything. -/
def Params.standardEncoding (p : Params) : Prop :=
  p = { Params.standard with
        tEn := p.tEn, tPost := p.tPost, tCmd := p.tCmd, tSettle := p.tSettle, i2cAddr := p.i2cAddr,
        straps := p.straps, dispReset := p.dispReset, blReset := p.blReset, textMax := p.textMax }

end Sys2Proof
end

