-- ==== Sys2Proof/Machine/State.lean ====
section
/-! DEFINITION. Machine/State.lean: everything the spec gives the machine (10_state.md), as plain data, and the model's own
fields around it (request port, bus oracle, trace, responses: 92_eei_decisions.md D1; 00_scope.md R5, R11). -/

namespace Sys2Proof.Machine

/-- The statements a request's micro-sequence is made of: the assignments to state, the micro-operations of 30_encoding.md
R61, the serializer `WRITE` (44_pipeline.md R143) and the primitive `BusPort` (20_memory.md R40). -/
inductive Stmt
  | setPower (on : Bool)
  | setCursor (on : Bool)
  | setBlink (on : Bool)
  | setBl (on : Bool)
  | fset
  | apply
  | nib (n : Nibble)
  | write (byte : Byte) (rs : Rs)
  | xmit (v : Byte)
  | busw (v : Byte)
  | busPort (v : Byte)
  | delay (p : Hold)
deriving DecidableEq, Repr

/-- `SEQ`, the sequencer's position (10_state.md R27): `idle` between requests; within a request, the statements of its
micro-sequence that are still to be performed, the next one first. -/
inductive Seq
  | idle
  | running (rest : List Stmt)
deriving DecidableEq, Repr

/-- The bus's answer to one write (20_memory.md R40); `silent` is a write that never gets an answer
(93_implementation_defined.md U9). -/
inductive BusAnswer
  | ok
  | fail (e : BusErr)
  | silent
deriving DecidableEq, Repr

/-- The bus oracle (00_scope.md R5, 20_memory.md R40): the answers to the coming writes, in order, and the answer to every
write after those. Every finite run of every oracle is some such value. -/
structure Bus where
  script : List BusAnswer
  rest   : BusAnswer
deriving DecidableEq, Repr

/-- An event of the trace (00_scope.md R11): `W(v)`, `W(v)!` (each with the address it went to) and `D(p)`. -/
inductive Event
  | wrote (addr : BusAddr) (v : Byte)
  | failed (addr : BusAddr) (v : Byte)
  | hold (p : Hold)
deriving DecidableEq, Repr

/-- The result of a request (00_scope.md R11): `ok` or `err(e)`. -/
inductive Response
  | ok
  | err (e : BusErr)
deriving DecidableEq, Repr

/-- Why the machine stops. -/
inductive Fault
  /-- The bus never answers a write: the encoder is stuck and the request never returns (93_implementation_defined.md U9:
  `stuck`). Raised by `busPort` and by nothing else. Safe: the hardware does not go on either. -/
  | busNeverAnswers
deriving DecidableEq, Repr

/-- Why the encoder gives what is presented no meaning. -/
inductive Refusal
  /-- An instruction without a meaning yet: none is left. Raised by `exec`'s arms only. Safe. -/
  | notModelled (mnemonic : String)
  /-- A reserved request word (R78), or a command byte of no row (`0x00`, R79; `0x03`, R65). Raised by the step when the
  decoder rejects. Safe. -/
  | reserved (why : DecodeReject)
  /-- A request presented while another runs (R209, U11: `refuse`). Raised by `request`. Safe. -/
  | busy
  /-- A text longer than `TEXT_MAX`, where `TEXT_MAX` is bounded (U15: `refuse`). Raised by `execText`. Safe. -/
  | textTooLong
deriving DecidableEq, Repr

structure State where
  /-- `CFG` (R21). -/
  cfg       : Cfg
  /-- `DISP` (R23). -/
  disp      : Disp
  /-- `BL` (R26). -/
  bl        : Bool
  /-- `SEQ` (R27). -/
  seq       : Seq
  /-- The parameters of R7: no state of the encoder, fixed for the machine; carried so that a claim can quantify over them. -/
  params    : Params
  /-- The requests the host presents, first one first (D1, D15): no state of the encoder (R32 (c)). -/
  port      : List PortItem
  /-- The bus oracle (R5): no state of the encoder. -/
  bus       : Bus
  /-- The trace since reset, oldest event first (R11): observed, never read by the encoder. -/
  trace     : List Event
  /-- The answers on the response port since reset, oldest first (D1): observed, never read by the encoder. -/
  responses : List Response
deriving DecidableEq, Repr

/-- Reset (70_reset_and_hazards.md R190; the table of 10_state.md R31) of a machine with parameters `p`: `CFG` from the
straps, `DISP` and `BL` at their reset values, `SEQ` idle, no bus write made (R191). Nothing is presented yet; the bus answers
`ok` (DESIGN CHOICE, log entry 5). -/
def State.resetWith (p : Params) : State where
  cfg       := p.straps
  disp      := p.dispReset
  bl        := p.blReset
  seq       := .idle
  params    := p
  port      := []
  bus       := ⟨[], .ok⟩
  trace     := []
  responses := []

/-- The machine right after reset, with the parameters of Machine/Defaults.lean. -/
def State.reset : State := State.resetWith Params.standard

/-- The three ways a micro-sequence ends: performed to its end, aborted by `BusFailure(e)` (60_exceptions.md R170), or stuck
in a bus write that never gets an answer (U9). -/
inductive Run
  | done (s : State)
  | aborted (s : State) (e : BusErr)
  | hung
deriving DecidableEq, Repr

end Sys2Proof.Machine
end

