-- ==== Sys2Proof/Machine/Operands.lean ====
section
/-! DEFINITION. Machine/Operands.lean: how bytes are assembled: the fragments of the configuration and of the operands, the
command bytes (30_encoding.md R64 to R71), the DDRAM-address function (43_text_placement.md R131), nibbles and overlays
(30_encoding.md R72 to R77). -/

namespace Sys2Proof

/-! ### Nibbles and modes -/

/-- `hi(b) = b & 0xF0` (R75). -/
def hiNibble (b : Byte) : Byte := b &&& 0xF0

/-- `lo(b) = (b << 4) & 0xF0` (R75). -/
def loNibble (b : Byte) : Byte := (b <<< 4) &&& 0xF0

/-- `(n << 4) & 0xF0` (R76). -/
def placeNibble (n : Nibble) : Byte := (n.setWidth 8 <<< 4) &&& 0xF0

/-- `mode(rs) = rs ? RS_BIT : 0` (R74). -/
def Params.mode (p : Params) : Rs → Byte
  | .cmd => 0
  | .data => p.rsBit

/-- The backlight overlay `BL ? BL_BIT : 0` (R73, R147). -/
def Params.overlay (p : Params) (bl : Bool) : Byte := if bl then p.blBit else 0

/-! ### Command bytes -/

/-- `OPB[k]` (R64). -/
def Params.opb (p : Params) : Opcode → Byte
  | .clearDisplay => p.opbClear
  | .returnHome => p.opbHome
  | .entryModeSet => p.opbEntry
  | .displayControl => p.opbDispctl
  | .cursorShift => p.opbShift
  | .functionSet => p.opbFset
  | .setCgramAddr => p.opbCgram
  | .setDdramAddr => p.opbDdram

/-- `cmdbyte(k, data) = OPB[k] | data` (R64). -/
def Params.cmdByte (p : Params) (k : Opcode) (data : Byte) : Byte := p.opb k ||| data

/-- `raw(CFG.ww)` (10_state.md R21). -/
def Params.rawWidth (p : Params) : WordWidth → Byte
  | .w4 => p.fsW4
  | .w8 => p.fsW8

/-- `raw(CFG.lc)` (10_state.md R21). -/
def Params.rawLines (p : Params) : LineCount → Byte
  | .l1 => p.fsL1
  | .l2 => p.fsL2

/-- `raw(CFG.ms)` (10_state.md R21). -/
def Params.rawMatrix (p : Params) : Matrix → Byte
  | .m5x8 => p.fsM5x8
  | .m5x10 => p.fsM5x10

/-- `fs_payload` (40_configuration_function_set.md R90, R91). -/
def Params.fsPayload (p : Params) (c : Cfg) : Byte := p.rawWidth c.ww ||| p.rawLines c.lc ||| p.rawMatrix c.ms

/-- The payload of `APPLY` (42_state_operations.md R113). -/
def Params.dcPayload (p : Params) (d : Disp) : Byte :=
  (if d.power then p.dcPower else 0) ||| (if d.cursor then p.dcCursor else 0) ||| (if d.blink then p.dcBlink else 0)

/-- The direction fragment (R66). -/
def Params.dirFrag (p : Params) : Dir → Byte
  | .left => p.emLeft
  | .right => p.emRight

/-- The shift fragment (R66, R118). -/
def Params.shiftFrag (p : Params) : Shift → Byte
  | .shift => p.shOn
  | .noShift => p.shOff

/-- The payload of `ENTRY` (R117). -/
def Params.emPayload (p : Params) (dir : Dir) (sh : Shift) : Byte := p.dirFrag dir ||| p.shiftFrag sh

/-- The payload of the cursor/display shift byte, `0b0001srxx` (R68). -/
def csPayload (s r : Bool) (x : BitVec 2) : Byte := 0#4 ++ BitVec.ofBool s ++ BitVec.ofBool r ++ x

/-! ### The DDRAM address -/

/-- `rowbase(row)`: four rows, every other value as row 1 (R131, R132). -/
def Params.rowBase (p : Params) (row : Byte) : Byte :=
  if row = 1 then p.row1Base
  else if row = 2 then p.row2Base
  else if row = 3 then p.row3Base
  else if row = 4 then p.row4Base
  else p.row1Base

/-- `ddram_offset(row, col) = (rowbase(row) + col) mod 256` (R131, decision D10). -/
def Params.ddramOffset (p : Params) (row col : Byte) : Byte := p.rowBase row + col

/-- `ddram_cmd(row, col) = OPB_DDRAM | ddram_offset(row, col)` (R131). -/
def Params.ddramCmd (p : Params) (row col : Byte) : Byte := p.cmdByte .setDdramAddr (p.ddramOffset row col)

/-! ### Times -/

/-- The duration a delay parameter stands for, in nanoseconds (70_reset_and_hazards.md R205 to R208). -/
def Params.duration (p : Params) : Hold → Nat
  | .tEn => p.tEn
  | .tPost => p.tPost
  | .tCmd => p.tCmd
  | .tSettle => p.tSettle

end Sys2Proof
end

