-- ==== Sys2Proof/Machine/Flags.lean ====
section
/-! DEFINITION. Machine/Flags.lean: the encoder has no condition codes (10_state.md R28). Its four one-bit control items are
each written by their own setter and by nothing else (R23, R26); these are the setters. -/

namespace Sys2Proof.Machine

/-- `DISP.power <- on` (42_state_operations.md R110). -/
def State.setPower (s : State) (on : Bool) : State := { s with disp := { s.disp with power := on } }

/-- `DISP.cursor <- on` (R111). -/
def State.setCursor (s : State) (on : Bool) : State := { s with disp := { s.disp with cursor := on } }

/-- `DISP.blink <- on` (R112). -/
def State.setBlink (s : State) (on : Bool) : State := { s with disp := { s.disp with blink := on } }

/-- `BL <- on` (R119). -/
def State.setBl (s : State) (on : Bool) : State := { s with bl := on }

end Sys2Proof.Machine
end

