-- ==== Sys2Proof/Machine/Ops.lean ====
section
/-! DEFINITION. Machine/Ops.lean: the operations every request ends in: the bus write, the strobe, the serializer, the builders,
the hold, the bus failure and the ordinary return. Each is written from the pseudocode of its rule. -/

namespace Sys2Proof.Machine

/-! ### Runs, the bus, the trace -/

/-- Perform the next statement; a raise or a hang ends everything above it (44_pipeline.md R152). -/
def Run.andThen : Run → (State → Run) → Run
  | .done s, f => f s
  | .aborted s e, _ => .aborted s e
  | .hung, _ => .hung

/-- The bus's answer to the next write. -/
def Bus.answer (b : Bus) : BusAnswer := b.script.headD b.rest

/-- The oracle after one write. -/
def Bus.tail (b : Bus) : Bus := { b with script := b.script.tail }

/-- Append an event to the trace (00_scope.md R11). -/
def State.emit (s : State) (e : Event) : State := { s with trace := s.trace ++ [e] }

/-- The bus has answered a write: the oracle moves on. -/
def State.busMoved (s : State) : State := { s with bus := s.bus.tail }

/-! ### The primitive and the micro-operations -/

/-- `BusPort(v)` (20_memory.md R40): one write of `v` to `I2C_ADDR`. `ok` appends `W(v)`; `fail(e)` appends `W(v)!` and raises
`BusFailure(e)` (60_exceptions.md R170); no answer leaves the encoder stuck (U9). -/
def busPort (v : Byte) (s : State) : Run :=
  match s.bus.answer with
  | .ok => .done (s.busMoved.emit (.wrote s.params.i2cAddr v))
  | .fail e => .aborted (s.busMoved.emit (.failed s.params.i2cAddr v)) e
  | .silent => .hung

/-- `BUSW(v)` (44_pipeline.md R147): the bus write with the backlight overlay. -/
def busw (v : Byte) (s : State) : Run := busPort (v ||| s.params.overlay s.bl) s

/-- `DELAY(p)` (44_pipeline.md R155): `emit D(p)`; it cannot fail. -/
def delay (p : Hold) (s : State) : Run := .done (s.emit (.hold p))

/-- `XMIT(v)` (44_pipeline.md R145): one strobe. -/
def xmit (v : Byte) (s : State) : Run :=
  (((busw (v ||| s.params.enBit) s).andThen
    (delay .tEn)).andThen
    (busw (v &&& ~~~s.params.enBit))).andThen
    (delay .tPost)

/-- `WRITE(byte, rs)` (44_pipeline.md R143): the serializer, high nibble first in 4-bit word width. -/
def write (byte : Byte) (rs : Rs) (s : State) : Run :=
  match s.cfg.ww with
  | .w4 => (xmit (hiNibble byte ||| s.params.mode rs) s).andThen (xmit (loNibble byte ||| s.params.mode rs))
  | .w8 => xmit (byte ||| s.params.mode rs) s

/-- `NIB(n)` (41_initialize.md R101): a single nibble write, in either word width. -/
def nib (n : Nibble) (s : State) : Run :=
  (xmit (placeNibble n ||| s.params.mode .cmd) s).andThen (delay .tCmd)

/-- `FSET()` (40_configuration_function_set.md R91). -/
def fset (s : State) : Run := write (s.params.cmdByte .functionSet (s.params.fsPayload s.cfg)) .cmd s

/-- `APPLY()` (42_state_operations.md R113). -/
def apply (s : State) : Run := write (s.params.cmdByte .displayControl (s.params.dcPayload s.disp)) .cmd s

/-! ### Micro-sequences -/

/-- One statement, performed to its end. -/
def runStmt : Stmt → State → Run
  | .setPower on, s => .done (s.setPower on)
  | .setCursor on, s => .done (s.setCursor on)
  | .setBlink on, s => .done (s.setBlink on)
  | .setBl on, s => .done (s.setBl on)
  | .fset, s => fset s
  | .apply, s => apply s
  | .nib n, s => nib n s
  | .write byte rs, s => write byte rs s
  | .xmit v, s => xmit v s
  | .busw v, s => busw v s
  | .busPort v, s => busPort v s
  | .delay p, s => delay p s

/-- Statements in textual order (10_state.md R27). -/
def runStmts : List Stmt → State → Run
  | [], s => .done s
  | x :: xs, s => (runStmt x s).andThen (runStmts xs)

/-! ### The end of a request -/

/-- `return ok`: `SEQ` is idle again and the response is `ok`. -/
def returnOk (s : State) : State := { s with seq := .idle, responses := s.responses ++ [.ok] }

/-- TAKING THE ONE EXCEPTION, `BusFailure(e)` (60_exceptions.md R175, R176): nothing of the request is performed any more,
`SEQ <- idle`, the response is `err(e)`; there is no handler and no saved state, and nothing is rolled back. There is no
return from it (R178): the encoder is idle and takes the next request. -/
def takeBusFailure (e : BusErr) (s : State) : State := { s with seq := .idle, responses := s.responses ++ [.err e] }

/-- How a micro-sequence ends the request. -/
def complete : Run → Host.Outcome State Fault Refusal
  | .done s => .next (returnOk s)
  | .aborted s e => .next (takeBusFailure e s)
  | .hung => .fault .busNeverAnswers

/-- A request with this micro-sequence, presented to the encoder: performed when `SEQ` is idle, refused while another request
runs (70_reset_and_hazards.md R209, U11). -/
def request (body : List Stmt) (s : State) : Host.Outcome State Fault Refusal :=
  match s.seq with
  | .idle => complete (runStmts body s)
  | .running _ => .refused .busy

/-! ### The reset input -/

/-- The reset input with these straps (70_reset_and_hazards.md R190 to R192; 10_state.md R22, R31): the encoder's four pieces of
state take their reset values, and no bus write and no hold is made. It cannot fail. That it may come in the middle of a request,
whose rest is then dropped without a response, is a DESIGN CHOICE (log entry 23). -/
def State.applyReset (straps : Cfg) (s : State) : State :=
  { s with
    params := { s.params with straps := straps }
    cfg := straps
    disp := s.params.dispReset
    bl := s.params.blReset
    seq := .idle }

end Sys2Proof.Machine
end

