-- ==== Sys2Proof/Machine/CommandBytes.lean ====
section
/-! DEFINITION. Machine/CommandBytes.lean: the eight command bytes of the opcode table (30_encoding.md R64 to R71), presented as
instructions: the encoder builds the byte `OPB[k] | payload` and transmits it as a command, `WRITE(byte, rs = 0)`, which is what
every rule that builds one does with it (R91, R113, R116, R117, R130, R140). That the display controller then executes it is
outside the encoder (00_scope.md R4 (f)). Log entry 1. -/

namespace Sys2Proof.Machine

/-- Clear (R65): no payload. -/
def bodyClearDisplay (p : Params) : List Stmt := [.write p.opbClear .cmd]

/-- Return-home (R65): no payload. -/
def bodyReturnHome (p : Params) : List Stmt := [.write p.opbHome .cmd]

/-- Entry-mode-set, `0b000001ds` (R66). -/
def bodyEntryModeSet (p : Params) (d s : Bool) : List Stmt :=
  [.write (p.cmdByte .entryModeSet (p.emPayload (Dir.ofBit d) (Shift.ofBit s))) .cmd]

/-- Display-control, `0b00001pcb` (R67). -/
def bodyDisplayControl (p : Params) (pw c b : Bool) : List Stmt :=
  [.write (p.cmdByte .displayControl (p.dcPayload ⟨pw, c, b⟩)) .cmd]

/-- Cursor/display shift, `0b0001srxx` (R68). -/
def bodyCursorShift (p : Params) (s r : Bool) (x : BitVec 2) : List Stmt :=
  [.write (p.cmdByte .cursorShift (csPayload s r x)) .cmd]

/-- The configuration a function-set byte announces (R69). -/
def announced (w l m : Bool) : Cfg :=
  ⟨if w then .w8 else .w4, if l then .l2 else .l1, if m then .m5x10 else .m5x8⟩

/-- Function-set, `0b001wlmxx` (R69); the two low bits are sent as they stand. -/
def bodyFunctionSet (p : Params) (w l m : Bool) (x : BitVec 2) : List Stmt :=
  [.write (p.cmdByte .functionSet (p.fsPayload (announced w l m) ||| x.setWidth 8)) .cmd]

/-- Set-CGRAM-address, `0b01aaaaaa` (R70). -/
def bodySetCgramAddr (p : Params) (a : BitVec 6) : List Stmt := [.write (p.cmdByte .setCgramAddr (a.setWidth 8)) .cmd]

/-- Set-DDRAM-address, `0b1aaaaaaa` (R71). -/
def bodySetDdramAddr (p : Params) (a : BitVec 7) : List Stmt := [.write (p.cmdByte .setDdramAddr (a.setWidth 8)) .cmd]

def execClearDisplay (s : State) : Host.Outcome State Fault Refusal := request (bodyClearDisplay s.params) s

def execReturnHome (s : State) : Host.Outcome State Fault Refusal := request (bodyReturnHome s.params) s

def execEntryModeSet (d sh : Bool) (s : State) : Host.Outcome State Fault Refusal :=
  request (bodyEntryModeSet s.params d sh) s

def execDisplayControl (pw c b : Bool) (s : State) : Host.Outcome State Fault Refusal :=
  request (bodyDisplayControl s.params pw c b) s

def execCursorShift (sc rl : Bool) (x : BitVec 2) (s : State) : Host.Outcome State Fault Refusal :=
  request (bodyCursorShift s.params sc rl x) s

def execFunctionSet (w l m : Bool) (x : BitVec 2) (s : State) : Host.Outcome State Fault Refusal :=
  request (bodyFunctionSet s.params w l m x) s

def execSetCgramAddr (a : BitVec 6) (s : State) : Host.Outcome State Fault Refusal :=
  request (bodySetCgramAddr s.params a) s

def execSetDdramAddr (a : BitVec 7) (s : State) : Host.Outcome State Fault Refusal :=
  request (bodySetDdramAddr s.params a) s

end Sys2Proof.Machine
end

