-- ==== Sys2Proof/Machine/Init.lean ====
section
/-! DEFINITION. Machine/Init.lean: the request `INIT` (41_initialize.md R100). -/

namespace Sys2Proof.Machine

/-- The pseudocode of R100, steps 1 to 7. -/
def bodyInit (p : Params) : List Stmt :=
  [.nib 0x3, .nib 0x3, .nib 0x3, .nib 0x2, .fset, .apply,
   .write p.opbClear .cmd,
   .write (p.cmdByte .entryModeSet (p.emPayload .left .noShift)) .cmd,
   .delay .tSettle]

/-- `INIT` (R100). -/
def execInit (s : State) : Host.Outcome State Fault Refusal := request (bodyInit s.params) s

end Sys2Proof.Machine
end

