-- ==== Sys2Proof/Machine/Pipeline.lean ====
section
/-! DEFINITION. Machine/Pipeline.lean: the raw requests `CMD` and `WRITE` (44_pipeline.md R140, R142). -/

namespace Sys2Proof.Machine

/-- R140: the operand is OR'd on as it stands. -/
def bodyCmd (p : Params) (k : Opcode) (data : Byte) : List Stmt := [.write (p.cmdByte k data) .cmd]

/-- R142. -/
def bodyWrite (byte : Byte) (rs : Rs) : List Stmt := [.write byte rs]

/-- `CMD k, data` (R140). -/
def execCmd (k : Opcode) (data : Byte) (s : State) : Host.Outcome State Fault Refusal :=
  request (bodyCmd s.params k data) s

/-- `WRITE byte, rs` (R142). -/
def execWrite (byte : Byte) (rs : Rs) (s : State) : Host.Outcome State Fault Refusal := request (bodyWrite byte rs) s

end Sys2Proof.Machine
end

