-- ==== Sys2Proof/Machine/StateOps.lean ====
section
/-! DEFINITION. Machine/StateOps.lean: `POWER`, `CURSOR`, `BLINK`, `CLEAR`, `ENTRY`, `BACKLIGHT` (42_state_operations.md). -/

namespace Sys2Proof.Machine

/-- R110: the field first, then all three flags as one command. -/
def bodyPower (on : Bool) : List Stmt := [.setPower on, .apply]

/-- R111. -/
def bodyCursor (on : Bool) : List Stmt := [.setCursor on, .apply]

/-- R112. -/
def bodyBlink (on : Bool) : List Stmt := [.setBlink on, .apply]

/-- R116. -/
def bodyClear (p : Params) : List Stmt := [.write p.opbClear .cmd]

/-- R117. -/
def bodyEntry (p : Params) (dir : Dir) (sh : Shift) : List Stmt :=
  [.write (p.cmdByte .entryModeSet (p.emPayload dir sh)) .cmd]

/-- R119: `BL` first, then one bus write of the overlay alone. -/
def bodyBacklight (on : Bool) : List Stmt := [.setBl on, .busw 0x00]

/-- `POWER on` (R110). -/
def execPower (on : Bool) (s : State) : Host.Outcome State Fault Refusal := request (bodyPower on) s

/-- `CURSOR on` (R111). -/
def execCursor (on : Bool) (s : State) : Host.Outcome State Fault Refusal := request (bodyCursor on) s

/-- `BLINK on` (R112). -/
def execBlink (on : Bool) (s : State) : Host.Outcome State Fault Refusal := request (bodyBlink on) s

/-- `CLEAR` (R116). -/
def execClear (s : State) : Host.Outcome State Fault Refusal := request (bodyClear s.params) s

/-- `ENTRY dir, shift` (R117). -/
def execEntry (dir : Dir) (sh : Shift) (s : State) : Host.Outcome State Fault Refusal :=
  request (bodyEntry s.params dir sh) s

/-- `BACKLIGHT on` (R119). -/
def execBacklight (on : Bool) (s : State) : Host.Outcome State Fault Refusal := request (bodyBacklight on) s

end Sys2Proof.Machine
end

