-- ==== Sys2Proof/Machine/Text.lean ====
section
/-! DEFINITION. Machine/Text.lean: the request `TEXT` (43_text_placement.md R130). -/

namespace Sys2Proof.Machine

/-- The pseudocode of R130: the address command, then each character as a data byte, in order. -/
def bodyText (p : Params) (row col : Byte) (chars : List Byte) : List Stmt :=
  .write (p.ddramCmd row col) .cmd :: chars.map (.write · .data)

/-- `TEXT row, col, text` (R130). A text longer than a bounded `TEXT_MAX` is refused (U15). -/
def execText (row col : Byte) (chars : List Byte) (s : State) : Host.Outcome State Fault Refusal :=
  if textFits s.params.textMax chars then request (bodyText s.params row col chars) s
  else .refused .textTooLong

end Sys2Proof.Machine
end

