-- ==== Sys2Proof/Machine/Dispatch.lean ====
section
/-! DEFINITION. Machine/Dispatch.lean: the meaning of every instruction, one arm each. -/

namespace Sys2Proof.Machine

def exec (i : Instr) (s : State) : Host.Outcome State Fault Refusal :=
  match i with
  | .init => Sys2Proof.Machine.execInit s
  | .clear => Sys2Proof.Machine.execClear s
  | .entry dir sh => Sys2Proof.Machine.execEntry dir sh s
  | .power on => Sys2Proof.Machine.execPower on s
  | .cursor on => Sys2Proof.Machine.execCursor on s
  | .blink on => Sys2Proof.Machine.execBlink on s
  | .backlight on => Sys2Proof.Machine.execBacklight on s
  | .text row col chars => Sys2Proof.Machine.execText row col chars s
  | .cmd k data => Sys2Proof.Machine.execCmd k data s
  | .write byte rs => Sys2Proof.Machine.execWrite byte rs s
  | .clearDisplay => Sys2Proof.Machine.execClearDisplay s
  | .returnHome => Sys2Proof.Machine.execReturnHome s
  | .entryModeSet d sh => Sys2Proof.Machine.execEntryModeSet d sh s
  | .displayControl pw c b => Sys2Proof.Machine.execDisplayControl pw c b s
  | .cursorShift sc rl x => Sys2Proof.Machine.execCursorShift sc rl x s
  | .functionSet w l m x => Sys2Proof.Machine.execFunctionSet w l m x s
  | .setCgramAddr a => Sys2Proof.Machine.execSetCgramAddr a s
  | .setDdramAddr a => Sys2Proof.Machine.execSetDdramAddr a s

end Sys2Proof.Machine
end

