-- ==== Sys2Proof/Machine/Port.lean ====
section
/-! DEFINITION. Machine/Port.lean: the request port: what the encoder takes next (20_memory.md R54, R173; decision D15). -/

namespace Sys2Proof.Machine

/-- What a step starts from. -/
inductive Taken
  /-- A request is in progress: these statements of it are left. -/
  | resume (rest : List Stmt)
  /-- The encoder is idle and no request is presented. -/
  | waiting
  /-- The encoder is idle and this instruction is presented; the state is the one after it is taken from the port. -/
  | instr (i : Instr) (s : State)
  /-- The encoder is idle and what is presented is reserved (R78). -/
  | reserved (why : DecodeReject)
deriving DecidableEq, Repr

/-- Requests are consumed one at a time in arrival order, none while `SEQ` is not idle (D15). -/
def take (s : State) : Taken :=
  match s.seq, s.port with
  | .running rest, _ => .resume rest
  | .idle, [] => .waiting
  | .idle, item :: later =>
    match decodeItem item with
    | .instr i => .instr i { s with port := later }
    | .rejected why => .reserved why

/-- Present this item first, to an encoder that is idle. -/
def State.present (s : State) (item : PortItem) : State := { s with port := item :: s.port, seq := .idle }

/-- Present an opcode-table word (no item where the bits fit none of the two formats). -/
def State.presentTableWord (s : State) (nbits w : Nat) : State :=
  match tableItem nbits w with
  | some item => s.present item
  | none => s

end Sys2Proof.Machine
end

