-- ==== Sys2Proof/Machine/Step.lean ====
section
/-! DEFINITION. Machine/Step.lean: one step of the encoder. A request is one atomic step (10_state.md R27 allows it; decision
D16); a state in the middle of a request finishes that request. -/

namespace Sys2Proof.Machine

def step (s : State) : Host.Outcome State Fault Refusal :=
  match take s with
  | .resume rest => complete (runStmts rest s)
  | .waiting => .next s
  | .instr i t => exec i t
  | .reserved why => .refused (.reserved why)

/-- The bits of an opcode-table row, presented at the request port so that the very next step takes them. -/
def State.withFetchWord (s : State) (nbits w : Nat) : State := s.presentTableWord nbits w

end Sys2Proof.Machine
end

