-- ==== Sys2Proof/Machine/Assembler.lean ====
section
/-! DEFINITION. Machine/Assembler.lean: the assembler syntax of 30_encoding.md R82 with the pseudo-instructions of R83: one line
per request, a `.config` and a `.reset` line. It only names requests (decision D19: no effect on behaviour). Braces are
written by their character codes. -/

namespace Sys2Proof

/-- A token of a line. -/
inductive AsmToken
  | name (cs : List Char)
  | num (n : Nat)
  | str (codes : List Byte)
  | sym (c : Char)
deriving DecidableEq, Repr

/-- A line: a request, the straps, or the start values of `DISP` and `BL`. -/
inductive AsmLine
  | request (i : Instr)
  | config (c : Cfg)
  | reset (d : Disp) (bl : Bool)
deriving DecidableEq, Repr

/-- The code of the opening brace. -/
def asmOpen : Char := Char.ofNat 123

/-- The code of the closing brace. -/
def asmClose : Char := Char.ofNat 125

/-! ### Tokens -/

/-- The value of a digit, in either base of R82. -/
def digitValue (c : Char) : Option Nat :=
  if 48 ≤ c.toNat ∧ c.toNat ≤ 57 then some (c.toNat - 48)
  else if 65 ≤ c.toNat ∧ c.toNat ≤ 70 then some (c.toNat - 55)
  else if 97 ≤ c.toNat ∧ c.toNat ≤ 102 then some (c.toNat - 87)
  else none

/-- A number in a base, most significant digit first. -/
def digitsValue (base : Nat) : Nat → List Char → Option Nat
  | acc, [] => some acc
  | acc, c :: cs =>
    match digitValue c with
    | some d => if d < base then digitsValue base (acc * base + d) cs else none
    | none => none

/-- A word of a line is a number when it begins with a digit (decimal, or `0x` hexadecimal), else a name. -/
def wordToken : List Char → Option AsmToken
  | '0' :: 'x' :: c :: cs => (digitsValue 16 0 (c :: cs)).map .num
  | c :: cs => if c.isDigit then (digitsValue 10 0 (c :: cs)).map .num else some (.name (c :: cs))
  | [] => none

/-- The tokens of a line; `word` holds the characters of the word being read, in reverse, and `quoted` says that a string is
being read. A quoted character stands for its 7-bit ASCII code. A `;` begins a comment. -/
def asmTokens (word : List Char) (quoted : Bool) : List Char → Option (List AsmToken)
  | [] => if quoted then none else if word.isEmpty then some [] else (wordToken word.reverse).map ([·])
  | c :: cs =>
    if quoted then
      if c = '"' then
        (asmTokens [] false cs).map (.str (word.reverse.map fun d => BitVec.ofNat 8 d.toNat) :: ·)
      else if c.toNat < 128 then asmTokens (c :: word) true cs
      else none
    else if c.isAlphanum || c = '_' || c = '.' then asmTokens (c :: word) false cs
    else
      let after : Option (List AsmToken) :=
        if c = ' ' then asmTokens [] false cs
        else if c = '"' then asmTokens [] true cs
        else if c = ';' then some []
        else if c = ',' ∨ c = '(' ∨ c = ')' ∨ c = '=' ∨ c = asmOpen ∨ c = asmClose then
          (asmTokens [] false cs).map (.sym c :: ·)
        else none
      if word.isEmpty then after
      else match wordToken word.reverse, after with
        | some t, some ts => some (t :: ts)
        | _, _ => none

/-! ### Lines -/

/-- A number that fits a byte. -/
def asmByte (n : Nat) : Option Byte := if n < 256 then some (BitVec.ofNat 8 n) else none

/-- `ON` is 1, `OFF` is 0. -/
def asmOn (cs : List Char) : Option Bool :=
  if cs = ['O', 'N'] then some true else if cs = ['O', 'F', 'F'] then some false else none

def asmDir (cs : List Char) : Option Dir :=
  if cs = ['L', 'E', 'F', 'T'] then some .left
  else if cs = ['R', 'I', 'G', 'H', 'T'] then some .right
  else none

def asmShift (cs : List Char) : Option Shift :=
  if cs = ['S', 'H', 'I', 'F', 'T'] then some .shift
  else if cs = ['N', 'O', 'S', 'H', 'I', 'F', 'T'] then some .noShift
  else none

def asmRs (cs : List Char) : Option Rs :=
  if cs = ['C', 'M', 'D'] then some .cmd else if cs = ['D', 'A', 'T', 'A'] then some .data else none

/-- The eight opcode names stand for `k` = 0 to 7. -/
def asmOpcode (cs : List Char) : Option Opcode :=
  if cs = ['C', 'L', 'E', 'A', 'R', '_', 'D', 'I', 'S', 'P', 'L', 'A', 'Y'] then some .clearDisplay
  else if cs = ['R', 'E', 'T', 'U', 'R', 'N', '_', 'H', 'O', 'M', 'E'] then some .returnHome
  else if cs = ['E', 'N', 'T', 'R', 'Y', '_', 'M', 'O', 'D', 'E', '_', 'S', 'E', 'T'] then some .entryModeSet
  else if cs = ['D', 'I', 'S', 'P', 'L', 'A', 'Y', '_', 'C', 'O', 'N', 'T', 'R', 'O', 'L'] then some .displayControl
  else if cs = ['C', 'U', 'R', 'S', 'O', 'R', '_', 'S', 'H', 'I', 'F', 'T'] then some .cursorShift
  else if cs = ['F', 'U', 'N', 'C', 'T', 'I', 'O', 'N', '_', 'S', 'E', 'T'] then some .functionSet
  else if cs = ['S', 'E', 'T', '_', 'C', 'G', 'R', 'A', 'M', '_', 'A', 'D', 'D', 'R'] then some .setCgramAddr
  else if cs = ['S', 'E', 'T', '_', 'D', 'D', 'R', 'A', 'M', '_', 'A', 'D', 'D', 'R'] then some .setDdramAddr
  else none

/-- The rest of a byte list after its first byte, up to the closing brace. -/
def asmMoreBytes : List AsmToken → Option (List Byte)
  | [.sym c] => if c = asmClose then some [] else none
  | .sym ',' :: .num n :: ts =>
    match asmByte n, asmMoreBytes ts with
    | some b, some bs => some (b :: bs)
    | _, _ => none
  | _ => none

/-- The text operand: a quoted string or a list of bytes in braces. -/
def asmText : List AsmToken → Option (List Byte)
  | [.str codes] => some codes
  | [.sym o, .sym c] => if o = asmOpen ∧ c = asmClose then some [] else none
  | .sym o :: .num n :: ts =>
    match asmByte n, asmMoreBytes ts with
    | some b, some bs => if o = asmOpen then some (b :: bs) else none
    | _, _ => none
  | _ => none

def asmWidth (cs : List Char) : Option WordWidth :=
  if cs = ['W', '4'] then some .w4 else if cs = ['W', '8'] then some .w8 else none

def asmLines (cs : List Char) : Option LineCount :=
  if cs = ['L', '1'] then some .l1 else if cs = ['L', '2'] then some .l2 else none

def asmMatrix (cs : List Char) : Option Matrix :=
  if cs = ['M', '5', 'X', '8'] then some .m5x8 else if cs = ['M', '5', 'X', '1', '0'] then some .m5x10 else none

/-- A boolean written 0 or 1. -/
def asmFlag (n : Nat) : Option Bool := if n = 0 then some false else if n = 1 then some true else none

/-- A line's tokens, read by its first name. -/
def asmParse (ts : List AsmToken) : Option AsmLine :=
  match ts with
  | [.name m] =>
    if m = ['I', 'N', 'I', 'T'] then some (.request .init)
    else if m = ['C', 'L', 'E', 'A', 'R'] then some (.request .clear)
    else if m = ['H', 'O', 'M', 'E'] then some (.request Pseudo.home.expand)
    else none
  | [.name m, .name x] =>
    if m = ['E', 'N', 'T', 'R', 'Y'] then (asmDir x).map fun d => .request (Pseudo.entryDir d).expand
    else if m = ['P', 'O', 'W', 'E', 'R'] then (asmOn x).map fun on => .request (.power on)
    else if m = ['C', 'U', 'R', 'S', 'O', 'R'] then (asmOn x).map fun on => .request (.cursor on)
    else if m = ['B', 'L', 'I', 'N', 'K'] then (asmOn x).map fun on => .request (.blink on)
    else if m = ['B', 'A', 'C', 'K', 'L', 'I', 'G', 'H', 'T'] then (asmOn x).map fun on => .request (.backlight on)
    else none
  | [.name m, .name x, .sym ',', .name y] =>
    if m = ['E', 'N', 'T', 'R', 'Y'] then
      match asmDir x, asmShift y with
      | some d, some sh => some (.request (.entry d sh))
      | _, _ => none
    else none
  | [.name m, .name x, .sym ',', .num n] =>
    if m = ['C', 'M', 'D'] then
      match asmOpcode x, asmByte n with
      | some k, some b => some (.request (.cmd k b))
      | _, _ => none
    else none
  | [.name m, .num n] =>
    if m = ['P', 'U', 'T', 'C'] then (asmByte n).map fun b => .request (Pseudo.putc b).expand else none
  | [.name m, .num n, .sym ',', .name y] =>
    if m = ['W', 'R', 'I', 'T', 'E'] then
      match asmByte n, asmRs y with
      | some b, some rs => some (.request (.write b rs))
      | _, _ => none
    else none
  | [.name m, .num n, .sym ',', .num k] =>
    if m = ['G', 'O', 'T', 'O'] then
      match asmByte n, asmByte k with
      | some row, some col => some (.request (Pseudo.goto row col).expand)
      | _, _ => none
    else none
  | .name m :: .num n :: .sym ',' :: .num k :: .sym ',' :: rest =>
    if m = ['T', 'E', 'X', 'T'] then
      match asmByte n, asmByte k, asmText rest with
      | some row, some col, some chars => some (.request (.text row col chars))
      | _, _, _ => none
    else none
  | [.name m, .name w, .sym ',', .name l, .sym ',', .name x] =>
    if m = ['.', 'c', 'o', 'n', 'f', 'i', 'g'] then
      match asmWidth w, asmLines l, asmMatrix x with
      | some ww, some lc, some ms => some (.config ⟨ww, lc, ms⟩)
      | _, _, _ => none
    else none
  | [.name m, .name d, .sym '=', .sym '(', .num p, .sym ',', .num c, .sym ',', .num b, .sym ')', .sym ',', .name l, .sym '=',
      .num x] =>
    if m = ['.', 'r', 'e', 's', 'e', 't'] ∧ d = ['D', 'I', 'S', 'P'] ∧ l = ['B', 'L'] then
      match asmFlag p, asmFlag c, asmFlag b, asmFlag x with
      | some p', some c', some b', some x' => some (.reset ⟨p', c', b'⟩ x')
      | _, _, _, _ => none
    else none
  | _ => none

/-- One line of assembler text (R82). -/
def assembleLine (line : List Char) : Option AsmLine := (asmTokens [] false line).bind asmParse

namespace Machine

/-- A machine reset for a program, with the program's requests presented at its port: a `.config` line gives the straps, a
`.reset` line the start values of `DISP` and `BL` (R82); the last line of a kind counts. -/
def State.withProgram (p : Params) (lines : List AsmLine) : State :=
  let q := lines.foldl (fun q l => match l with
    | .config c => { q with straps := c }
    | .reset d bl => { q with dispReset := d, blReset := bl }
    | .request _ => q) p
  { State.resetWith q with
    port := lines.filterMap fun l => match l with
      | .request i => some (encode i)
      | .config _ => none
      | .reset _ _ => none }

end Machine

end Sys2Proof
end

