-- ==== Sys2Proof/Machine/Sequencer.lean ====
section
/-! DEFINITION. Machine/Sequencer.lean: the encoder in micro-steps driven by `SEQ` (10_state.md R27, decision D16): one statement
of the current request's micro-sequence at a time. The atomic step of Machine/Step.lean is the machine; this is the same machine
seen one statement at a time, and it is what reaches the states in which `SEQ` is not idle. -/

namespace Sys2Proof.Machine

/-- The micro-sequence of every instruction. -/
def bodyOf (p : Params) : Instr → List Stmt
  | .init => bodyInit p
  | .clear => bodyClear p
  | .entry dir sh => bodyEntry p dir sh
  | .power on => bodyPower on
  | .cursor on => bodyCursor on
  | .blink on => bodyBlink on
  | .backlight on => bodyBacklight on
  | .text row col chars => bodyText p row col chars
  | .cmd k data => bodyCmd p k data
  | .write byte rs => bodyWrite byte rs
  | .clearDisplay => bodyClearDisplay p
  | .returnHome => bodyReturnHome p
  | .entryModeSet d s => bodyEntryModeSet p d s
  | .displayControl pw c b => bodyDisplayControl p pw c b
  | .cursorShift s r x => bodyCursorShift p s r x
  | .functionSet w l m x => bodyFunctionSet p w l m x
  | .setCgramAddr a => bodySetCgramAddr p a
  | .setDdramAddr a => bodySetDdramAddr p a

/-- `SEQ` with these statements put in front of what is left. -/
def Seq.push (xs : List Stmt) : Seq → Seq
  | .idle => .running xs
  | .running rest => .running (xs ++ rest)

/-- Enter a micro-operation: its own statements come next. -/
def State.enter (s : State) (xs : List Stmt) : State := { s with seq := s.seq.push xs }

/-- Perform one statement, `SEQ` already past it: an assignment, a hold or a bus write takes effect; a micro-operation is
entered (its pseudocode is put in front). -/
def perform (x : Stmt) (s : State) : Host.Outcome State Fault Refusal :=
  match x with
  | .setPower on => .next (s.setPower on)
  | .setCursor on => .next (s.setCursor on)
  | .setBlink on => .next (s.setBlink on)
  | .setBl on => .next (s.setBl on)
  | .fset => .next (s.enter [.write (s.params.cmdByte .functionSet (s.params.fsPayload s.cfg)) .cmd])
  | .apply => .next (s.enter [.write (s.params.cmdByte .displayControl (s.params.dcPayload s.disp)) .cmd])
  | .nib n => .next (s.enter [.xmit (placeNibble n ||| s.params.mode .cmd), .delay .tCmd])
  | .write byte rs =>
    match s.cfg.ww with
    | .w4 => .next (s.enter [.xmit (hiNibble byte ||| s.params.mode rs), .xmit (loNibble byte ||| s.params.mode rs)])
    | .w8 => .next (s.enter [.xmit (byte ||| s.params.mode rs)])
  | .xmit v => .next (s.enter [.busw (v ||| s.params.enBit), .delay .tEn, .busw (v &&& ~~~s.params.enBit), .delay .tPost])
  | .busw v => .next (s.enter [.busPort (v ||| s.params.overlay s.bl)])
  | .busPort v =>
    match busPort v s with
    | .done t => .next t
    | .aborted t e => .next (takeBusFailure e t)
    | .hung => .fault .busNeverAnswers
  | .delay p => .next (s.emit (.hold p))

/-- One micro-step: accept a request when idle, perform the next statement of a running one, return when none is left. -/
def microStep (s : State) : Host.Outcome State Fault Refusal :=
  match take s with
  | .waiting => .next s
  | .reserved why => .refused (.reserved why)
  | .instr i t =>
    if i.wf t.params.textMax then .next { t with seq := .running (bodyOf t.params i) } else .refused .textTooLong
  | .resume [] => .next (returnOk s)
  | .resume (x :: xs) => perform x { s with seq := .running xs }

/-- `n` micro-steps, ending early at a stop. -/
def microRun : Nat → State → Host.Outcome State Fault Refusal
  | 0, s => .next s
  | n + 1, s =>
    match microStep s with
    | .next t => microRun n t
    | .fault r => .fault r
    | .refused r => .refused r

end Sys2Proof.Machine
end

