-- ==== Sys2Proof/Machine/Trace.lean ====
section
/-! DEFINITION. Machine/Trace.lean: reading a trace (00_scope.md R11): the bytes on the bus, the holds, when two traces are the
same, and the traces the rules R143, R145 and R101 give to a byte, a strobe and a nibble. -/

namespace Sys2Proof.Machine

/-! ### Bytes and holds -/

/-- The byte an event puts on the bus, acknowledged or not. -/
def Event.byte? : Event → Option Byte
  | .wrote _ v => some v
  | .failed _ v => some v
  | .hold _ => none

/-- The address an event's bus write goes to. -/
def Event.addr? : Event → Option BusAddr
  | .wrote a _ => some a
  | .failed a _ => some a
  | .hold _ => none

/-- The event is an acknowledged bus write `W(v)`. -/
def Event.isWrote : Event → Bool
  | .wrote _ _ => true
  | .failed _ _ => false
  | .hold _ => false

/-- The event is a failed bus write `W(v)!`. -/
def Event.isFailed : Event → Bool
  | .failed _ _ => true
  | .wrote _ _ => false
  | .hold _ => false

/-- The event is a hold `D(p)` of this name. -/
def Event.isHold (p : Hold) : Event → Bool
  | .hold q => decide (q = p)
  | .wrote _ _ => false
  | .failed _ _ => false

/-- The bytes put on the bus, in order. -/
def busBytes (t : List Event) : List Byte := t.filterMap Event.byte?

/-- How many bus writes were acknowledged. -/
def writeCount (t : List Event) : Nat := t.countP Event.isWrote

/-- How many holds of a name were made. -/
def holdCount (p : Hold) (t : List Event) : Nat := t.countP (Event.isHold p)

/-- The duration an event takes at least, in nanoseconds (the bus's own time is not counted, 70_reset_and_hazards.md R210). -/
def Event.duration (p : Params) : Event → Nat
  | .hold h => p.duration h
  | .wrote _ _ => 0
  | .failed _ _ => 0

/-- The duration a trace takes at least. -/
def minDuration (p : Params) (t : List Event) : Nat := (t.map (Event.duration p)).sum

/-- The byte at the bridge chip's output as far as the trace tells: the last acknowledged one (20_memory.md R55); nothing is
known before the first write (R191) or after a failed one (R177). -/
def busOutput (t : List Event) : Option Byte :=
  t.foldl (fun known e => match e with
    | .wrote _ v => some v
    | .failed _ _ => none
    | .hold _ => known) none

/-! ### When two traces are the same -/

/-- An event whose hold has a duration instead of a name. -/
inductive TimedEvent
  | wrote (addr : BusAddr) (v : Byte)
  | failed (addr : BusAddr) (v : Byte)
  | hold (ns : Nat)
deriving DecidableEq, Repr

/-- Put a hold in front: a zero hold is dropped, adjacent holds add up (R11, R155 (c), (d)). -/
def addHold (ns : Nat) : List TimedEvent → List TimedEvent
  | .hold m :: t => .hold (ns + m) :: t
  | .wrote a v :: t => if ns = 0 then .wrote a v :: t else .hold ns :: .wrote a v :: t
  | .failed a v :: t => if ns = 0 then .failed a v :: t else .hold ns :: .failed a v :: t
  | [] => if ns = 0 then [] else [.hold ns]

/-- R11: drop every hold of duration zero and merge adjacent holds by adding their durations. -/
def normalise (p : Params) : List Event → List TimedEvent
  | [] => []
  | .wrote a v :: t => .wrote a v :: normalise p t
  | .failed a v :: t => .failed a v :: normalise p t
  | .hold h :: t => addHold (p.duration h) (normalise p t)

/-- R11: two traces are the same. -/
def sameTrace (p : Params) (t u : List Event) : Prop := normalise p t = normalise p u

/-! ### Traces of the pipeline when every write is acknowledged -/

/-- One strobe (44_pipeline.md R145 with the overlay of R147). -/
def strobeTrace (p : Params) (bl : Bool) (v : Byte) : List Event :=
  [.wrote p.i2cAddr ((v ||| p.enBit) ||| p.overlay bl), .hold .tEn,
   .wrote p.i2cAddr ((v &&& ~~~p.enBit) ||| p.overlay bl), .hold .tPost]

/-- One byte: two strobes in 4-bit word width, one in 8-bit (44_pipeline.md R143). -/
def byteTrace (p : Params) (ww : WordWidth) (bl : Bool) (byte : Byte) (rs : Rs) : List Event :=
  match ww with
  | .w4 => strobeTrace p bl (hiNibble byte ||| p.mode rs) ++ strobeTrace p bl (loNibble byte ||| p.mode rs)
  | .w8 => strobeTrace p bl (byte ||| p.mode rs)

/-- One handshake nibble (41_initialize.md R101). -/
def nibTrace (p : Params) (bl : Bool) (n : Nibble) : List Event :=
  strobeTrace p bl (placeNibble n) ++ [.hold .tCmd]

/-! ### A bus that answers `ok`, and a bus that fails -/

/-- The next `n` writes are all answered `ok`. -/
def Bus.okFor : Nat → Bus → Bool
  | 0, _ => true
  | n + 1, b => decide (b.answer = .ok) && Bus.okFor n b.tail

/-- The oracle after `n` writes. -/
def Bus.skip : Nat → Bus → Bus
  | 0, b => b
  | n + 1, b => Bus.skip n b.tail

/-- A trace cut short at its `n`-th bus write (counted from 0), which fails: everything before it stands, nothing follows
(60_exceptions.md R175). -/
def cutAt : Nat → List Event → List Event
  | _, [] => []
  | n, .hold h :: t => .hold h :: cutAt n t
  | n, .failed a v :: t => .failed a v :: cutAt n t
  | 0, .wrote a v :: _ => [.failed a v]
  | n + 1, .wrote a v :: t => .wrote a v :: cutAt n t

end Sys2Proof.Machine
end

