-- ==== Sys2Proof/Safety.lean ====
section
/-! DEFINITION. Safety.lean: the terms the claims are stated in: what each instruction may change, how many bus writes it makes,
what a run may assume of a state, and the invariant. -/

namespace Sys2Proof.Machine

/-- `DISP` after an instruction: only the three setters write it, one field each (10_state.md R23, R25). -/
def dispAfter : Instr → Disp → Disp
  | .power on, d => { d with power := on }
  | .cursor on, d => { d with cursor := on }
  | .blink on, d => { d with blink := on }
  | .init, d => d
  | .clear, d => d
  | .entry _ _, d => d
  | .backlight _, d => d
  | .text _ _ _, d => d
  | .cmd _ _, d => d
  | .write _ _, d => d
  | .clearDisplay, d => d
  | .returnHome, d => d
  | .entryModeSet _ _, d => d
  | .displayControl _ _ _, d => d
  | .cursorShift _ _ _, d => d
  | .functionSet _ _ _ _, d => d
  | .setCgramAddr _, d => d
  | .setDdramAddr _, d => d

/-- `BL` after an instruction: only `BACKLIGHT` writes it (R26). -/
def blAfter : Instr → Bool → Bool
  | .backlight on, _ => on
  | .power _, b => b
  | .cursor _, b => b
  | .blink _, b => b
  | .init, b => b
  | .clear, b => b
  | .entry _ _, b => b
  | .text _ _ _, b => b
  | .cmd _ _, b => b
  | .write _ _, b => b
  | .clearDisplay, b => b
  | .returnHome, b => b
  | .entryModeSet _ _, b => b
  | .displayControl _ _ _, b => b
  | .cursorShift _ _ _, b => b
  | .functionSet _ _ _ _, b => b
  | .setCgramAddr _, b => b
  | .setDdramAddr _, b => b

/-- Strobes per `WRITE` (44_pipeline.md R143). -/
def strobesPerByte : WordWidth → Nat
  | .w4 => 2
  | .w8 => 1

/-- `WRITE`s per successful instruction (44_pipeline.md R151). -/
def bytesSent : Instr → Nat
  | .init => 4
  | .clear => 1
  | .entry _ _ => 1
  | .power _ => 1
  | .cursor _ => 1
  | .blink _ => 1
  | .backlight _ => 0
  | .text _ _ chars => 1 + chars.length
  | .cmd _ _ => 1
  | .write _ _ => 1
  | .clearDisplay => 1
  | .returnHome => 1
  | .entryModeSet _ _ => 1
  | .displayControl _ _ _ => 1
  | .cursorShift _ _ _ => 1
  | .functionSet _ _ _ _ => 1
  | .setCgramAddr _ => 1
  | .setDdramAddr _ => 1

/-- `NIB`s per successful instruction (R151): the four of `INIT`. -/
def nibblesSent : Instr → Nat
  | .init => 4
  | _ => 0

/-- Bus writes made outside a strobe: the one of `BACKLIGHT` (R151). -/
def bareWrites : Instr → Nat
  | .backlight _ => 1
  | _ => 0

/-- Strobes per successful instruction. -/
def strobesSent (ww : WordWidth) (i : Instr) : Nat := nibblesSent i + strobesPerByte ww * bytesSent i

/-- Bus writes per successful instruction (R151). -/
def busWrites (ww : WordWidth) (i : Instr) : Nat := 2 * strobesSent ww i + bareWrites i

/-- The encoder is idle and the instruction is one it accepts. -/
def Ready (i : Instr) (s : State) : Prop := s.seq = .idle ∧ i.wf s.params.textMax = true

/-- The state `s` after `events`, all of whose bus writes were acknowledged, and the response `ok`; every field not named is as
it was in `s`. -/
def State.afterOk (s : State) (events : List Event) : State :=
  { s with bus := s.bus.skip (writeCount events), trace := s.trace ++ events, responses := s.responses ++ [.ok] }

/-- The state `s` after `events` were cut short at bus write `n` (counted from 0), which failed with `e`, and the response
`err(e)` (60_exceptions.md R175); every field not named is as it was in `s`. -/
def State.afterFail (s : State) (n : Nat) (e : BusErr) (events : List Event) : State :=
  { s with bus := s.bus.skip (n + 1), trace := s.trace ++ cutAt n events, responses := s.responses ++ [.err e] }

/-- Every bus write of these events is answered `ok`. -/
abbrev Acknowledges (b : Bus) (events : List Event) : Prop := b.okFor (writeCount events) = true

/-- The bus answers `ok` to the first `n` writes and fails the next one, which is one of these events', with `e`. -/
abbrev FailsAt (b : Bus) (n : Nat) (e : BusErr) (events : List Event) : Prop :=
  n < writeCount events ∧ b.okFor n = true ∧ (b.skip n).answer = .fail e

/-- The instruction, started in `s`, is `events` performed from `u` (the state its own assignments leave) whatever the bus
answers: acknowledged throughout it ends in `u` after those events with `ok`; failed at write `n` it ends there with
`err(e)`. -/
def Performs (i : Instr) (s u : State) (events : List Event) : Prop :=
  (Acknowledges s.bus events → exec i s = .next (u.afterOk events)) ∧
  (∀ n e, FailsAt s.bus n e events → exec i s = .next (u.afterFail n e events))

/-- Bus writes of a statement performed to its end (R151). -/
def stmtWrites (ww : WordWidth) : Stmt → Nat
  | .busPort _ => 1
  | .busw _ => 1
  | .xmit _ => 2
  | .nib _ => 2
  | .write _ _ => 2 * strobesPerByte ww
  | .fset => 2 * strobesPerByte ww
  | .apply => 2 * strobesPerByte ww
  | .setPower _ => 0
  | .setCursor _ => 0
  | .setBlink _ => 0
  | .setBl _ => 0
  | .delay _ => 0

/-- The events of a trace all go to `I2C_ADDR` (20_memory.md R41). -/
def oneAddress (p : Params) (t : List Event) : Prop := ∀ e ∈ t, ∀ a, e.addr? = some a → a = p.i2cAddr

/-- No byte put on the bus has the read-write bit set (44_pipeline.md R149). -/
def readWriteLow (p : Params) (t : List Event) : Prop := ∀ v ∈ busBytes t, v &&& p.rwBit = 0

/-- What holds between requests, in every run: the parameters are well-formed (R8), `CFG` is what the straps say (R22), `SEQ` is
idle (R27), every bus write went to `I2C_ADDR` (R41), and in 4-bit word width the read-write bit was never set (R149). -/
structure Inv (s : State) : Prop where
  params_wf : s.params.wf = true
  cfg_straps : s.cfg = s.params.straps
  seq_idle : s.seq = .idle
  one_address : oneAddress s.params s.trace
  read_write_low : s.cfg.ww = .w4 → readWriteLow s.params s.trace

end Sys2Proof.Machine
end

