-- ==== Sys2Proof/Certificates/Slice0/Obligations.lean ====
section
/-! DEFINITION. Certificates/Slice0/Obligations.lean: the statements about the encoder. -/

open Sys2Proof Sys2Proof.Machine

/-! ### The ten requests (30_encoding.md R60) and the eight command bytes (R64)

Each statement gives, for an encoder that is idle, the instruction's word, its next state when the bus acknowledges every write,
and its next state when the bus fails one: `afterOk` and `afterFail` change the oracle, the trace and the responses and nothing
else, so each equation is the instruction's frame as well. -/

/-- 41_initialize.md R100, R101, R104: `INIT` sends the handshake nibbles 3, 3, 3, 2, the function-set, display-control, clear and
entry-mode-set commands, and holds `T_SETTLE`; 24 bus writes in 4-bit word width and 16 in 8-bit; it writes no state. That `T_CMD`
follows the nibble `0x2` too (decision D8) and that the handshake is the same in 8-bit word width (decision D21) are choices, log
entry 18. -/
def Obligations.InitRunsHandshakeThenCommands : Prop :=
  decodeItem (.word 0x00000 []) = .instr .init ∧
  ∀ s : State, s.seq = .idle →
    let p := s.params
    let send := fun b => byteTrace p s.cfg.ww s.bl b .cmd
    let evs := nibTrace p s.bl 0x3 ++ nibTrace p s.bl 0x3 ++ nibTrace p s.bl 0x3 ++ nibTrace p s.bl 0x2 ++
      send (p.opbFset ||| p.fsPayload s.cfg) ++ send (p.opbDispctl ||| p.dcPayload s.disp) ++
      send p.opbClear ++ send (p.opbEntry ||| (p.emLeft ||| p.shOff)) ++ [.hold .tSettle]
    writeCount evs = (match s.cfg.ww with | .w4 => 24 | .w8 => 16) ∧
    (Acknowledges s.bus evs → exec .init s = .next (s.afterOk evs)) ∧
    ∀ n e, FailsAt s.bus n e evs → exec .init s = .next (s.afterFail n e evs)

/-- 42_state_operations.md R116: `CLEAR` sends the byte `OPB_CLEAR` as a command and writes no state. -/
def Obligations.ClearSendsClearDisplay : Prop :=
  decodeItem (.word 0x10000 []) = .instr .clear ∧
  ∀ s : State, s.seq = .idle →
    let evs := byteTrace s.params s.cfg.ww s.bl s.params.opbClear .cmd
    (Acknowledges s.bus evs → exec .clear s = .next (s.afterOk evs)) ∧
    ∀ n e, FailsAt s.bus n e evs → exec .clear s = .next (s.afterFail n e evs)

/-- R117: `ENTRY dir, shift` sends `OPB_ENTRY | dirfrag | shiftfrag` as a command and writes no state. The shift operand is the
spec's decision D9. -/
def Obligations.EntrySendsEntryModeSet : Prop :=
  (∀ dir sh, decodeItem (.word (0x20000 ||| (if dir = .left then 2 else 0) ||| (if sh = .shift then 1 else 0)) []) =
    .instr (.entry dir sh)) ∧
  ∀ (s : State) (dir : Dir) (sh : Shift), s.seq = .idle →
    let p := s.params
    let payload := (if dir = .left then p.emLeft else p.emRight) ||| (if sh = .shift then p.shOn else p.shOff)
    let evs := byteTrace p s.cfg.ww s.bl (p.opbEntry ||| payload) .cmd
    (Acknowledges s.bus evs → exec (.entry dir sh) s = .next (s.afterOk evs)) ∧
    ∀ n e, FailsAt s.bus n e evs → exec (.entry dir sh) s = .next (s.afterFail n e evs)

/-- R110: `POWER on` writes `DISP.power` and then sends all three flags as one display-control command; a bus failure leaves the
new value in place. -/
def Obligations.PowerWritesItsFlagAndApplies : Prop :=
  (∀ on, decodeItem (.word (0x30000 ||| (if on then 1 else 0)) []) = .instr (.power on)) ∧
  ∀ (s : State) (on : Bool), s.seq = .idle →
    let p := s.params
    let u := { s with disp := ⟨on, s.disp.cursor, s.disp.blink⟩ }
    let payload := (if on then p.dcPower else 0) ||| (if s.disp.cursor then p.dcCursor else 0) |||
      (if s.disp.blink then p.dcBlink else 0)
    let evs := byteTrace p s.cfg.ww s.bl (p.opbDispctl ||| payload) .cmd
    (Acknowledges s.bus evs → exec (.power on) s = .next (u.afterOk evs)) ∧
    ∀ n e, FailsAt s.bus n e evs → exec (.power on) s = .next (u.afterFail n e evs)

/-- R111: `CURSOR on` writes `DISP.cursor` and then sends all three flags as one display-control command. -/
def Obligations.CursorWritesItsFlagAndApplies : Prop :=
  (∀ on, decodeItem (.word (0x40000 ||| (if on then 1 else 0)) []) = .instr (.cursor on)) ∧
  ∀ (s : State) (on : Bool), s.seq = .idle →
    let p := s.params
    let u := { s with disp := ⟨s.disp.power, on, s.disp.blink⟩ }
    let payload := (if s.disp.power then p.dcPower else 0) ||| (if on then p.dcCursor else 0) |||
      (if s.disp.blink then p.dcBlink else 0)
    let evs := byteTrace p s.cfg.ww s.bl (p.opbDispctl ||| payload) .cmd
    (Acknowledges s.bus evs → exec (.cursor on) s = .next (u.afterOk evs)) ∧
    ∀ n e, FailsAt s.bus n e evs → exec (.cursor on) s = .next (u.afterFail n e evs)

/-- R112: `BLINK on` writes `DISP.blink` and then sends all three flags as one display-control command. -/
def Obligations.BlinkWritesItsFlagAndApplies : Prop :=
  (∀ on, decodeItem (.word (0x50000 ||| (if on then 1 else 0)) []) = .instr (.blink on)) ∧
  ∀ (s : State) (on : Bool), s.seq = .idle →
    let p := s.params
    let u := { s with disp := ⟨s.disp.power, s.disp.cursor, on⟩ }
    let payload := (if s.disp.power then p.dcPower else 0) ||| (if s.disp.cursor then p.dcCursor else 0) |||
      (if on then p.dcBlink else 0)
    let evs := byteTrace p s.cfg.ww s.bl (p.opbDispctl ||| payload) .cmd
    (Acknowledges s.bus evs → exec (.blink on) s = .next (u.afterOk evs)) ∧
    ∀ n e, FailsAt s.bus n e evs → exec (.blink on) s = .next (u.afterFail n e evs)

/-- R119: `BACKLIGHT on` writes `BL` and then makes exactly one bus write, of the backlight overlay alone, with no enable pulse
and no hold, in either word width; a bus failure leaves the new value in place. The byte and the missing hold are the spec's
decision D12. -/
def Obligations.BacklightWritesTheOverlayAlone : Prop :=
  (∀ on, decodeItem (.word (0x60000 ||| (if on then 1 else 0)) []) = .instr (.backlight on)) ∧
  ∀ (s : State) (on : Bool), s.seq = .idle →
    let u := { s with bl := on }
    let v := if on then s.params.blBit else 0x00
    let a := s.params.i2cAddr
    (s.bus.answer = .ok → exec (.backlight on) s =
      .next { u with bus := s.bus.tail, trace := s.trace ++ [.wrote a v], responses := s.responses ++ [.ok] }) ∧
    ∀ e, s.bus.answer = .fail e → exec (.backlight on) s =
      .next { u with bus := s.bus.tail, trace := s.trace ++ [.failed a v], responses := s.responses ++ [.err e] }

/-- 43_text_placement.md R130: `TEXT row, col, text` sends the set-DDRAM-address command and then each character as a data byte,
in order, and writes no state; `L` characters take `(1 + L) × 4` bus writes in 4-bit word width and `(1 + L) × 2` in 8-bit. (A
text longer than a bounded `TEXT_MAX` is `LongTextIsRefused`.) -/
def Obligations.TextSendsAddressThenCharacters : Prop :=
  (∀ (row col : Byte) (chars : List Byte),
    decodeItem (.word (0x70000 ||| row.setWidth 20 <<< 8 ||| col.setWidth 20) chars) = .instr (.text row col chars)) ∧
  ∀ (s : State) (row col : Byte) (chars : List Byte), s.seq = .idle → textFits s.params.textMax chars = true →
    let p := s.params
    let evs := byteTrace p s.cfg.ww s.bl (p.opbDdram ||| p.ddramOffset row col) .cmd ++
      chars.flatMap (fun c => byteTrace p s.cfg.ww s.bl c .data)
    writeCount evs = (1 + chars.length) * (match s.cfg.ww with | .w4 => 4 | .w8 => 2) ∧
    (Acknowledges s.bus evs → exec (.text row col chars) s = .next (s.afterOk evs)) ∧
    ∀ n e, FailsAt s.bus n e evs → exec (.text row col chars) s = .next (s.afterFail n e evs)

/-- 93_implementation_defined.md U15: where `TEXT_MAX` is bounded, a longer text is refused (decision D11, log entry 9). -/
def Obligations.LongTextIsRefused : Prop :=
  ∀ (s : State) (row col : Byte) (chars : List Byte) (m : Nat), s.seq = .idle → s.params.textMax = some m →
    m < chars.length → exec (.text row col chars) s = .refused .textTooLong

/-- 44_pipeline.md R140: `CMD k, data` sends `OPB[k] | data`, the operand as it stands, as a command, and writes no state. The
two-operand form is the spec's decision D22. -/
def Obligations.CmdSendsBaseOrData : Prop :=
  (∀ (k : Opcode) (data : Byte), decodeItem (.word (0x80000 ||| k.toBits.setWidth 20 <<< 8 ||| data.setWidth 20) []) = .instr (.cmd k data)) ∧
  ∀ (s : State) (data : Byte), s.seq = .idle →
    let p := s.params
    ∀ kb ∈ [(Opcode.clearDisplay, p.opbClear), (.returnHome, p.opbHome), (.entryModeSet, p.opbEntry),
        (.displayControl, p.opbDispctl), (.cursorShift, p.opbShift), (.functionSet, p.opbFset),
        (.setCgramAddr, p.opbCgram), (.setDdramAddr, p.opbDdram)],
      let evs := byteTrace p s.cfg.ww s.bl (kb.2 ||| data) .cmd
      (Acknowledges s.bus evs → exec (.cmd kb.1 data) s = .next (s.afterOk evs)) ∧
      ∀ n e, FailsAt s.bus n e evs → exec (.cmd kb.1 data) s = .next (s.afterFail n e evs)

/-- R142, R143 with R145 and R147, every bus byte written out: in 4-bit word width `WRITE byte, rs` is two strobes, the high
nibble first, both carrying the same mode; in 8-bit word width one strobe of the whole byte. No state is written. -/
def Obligations.WriteSerializesTheByte : Prop :=
  (∀ (byte : Byte) (rs : Rs),
    decodeItem (.word (0x90000 ||| (if rs = .data then 0x100 else 0) ||| byte.setWidth 20) []) = .instr (.write byte rs)) ∧
  ∀ (s : State) (byte : Byte) (rs : Rs), s.seq = .idle →
    let p := s.params
    let a := p.i2cAddr
    let mode := if rs = .data then p.rsBit else 0x00
    let bl := if s.bl then p.blBit else 0x00
    let hi := (byte &&& 0xF0) ||| mode
    let lo := ((byte <<< 4) &&& 0xF0) ||| mode
    let evs := match s.cfg.ww with
      | .w4 => [Event.wrote a ((hi ||| p.enBit) ||| bl), .hold .tEn, .wrote a ((hi &&& ~~~p.enBit) ||| bl), .hold .tPost,
                .wrote a ((lo ||| p.enBit) ||| bl), .hold .tEn, .wrote a ((lo &&& ~~~p.enBit) ||| bl), .hold .tPost]
      | .w8 => [Event.wrote a (((byte ||| mode) ||| p.enBit) ||| bl), .hold .tEn,
                .wrote a (((byte ||| mode) &&& ~~~p.enBit) ||| bl), .hold .tPost]
    (Acknowledges s.bus evs → exec (.write byte rs) s = .next (s.afterOk evs)) ∧
    ∀ n e, FailsAt s.bus n e evs → exec (.write byte rs) s = .next (s.afterFail n e evs)

/-- The eight command bytes of the opcode table (30_encoding.md R64 to R71) presented as instructions: each is built as its base
OR'd with its payload and sent as a command. That a command byte presented alone means its transmission is the model's choice
(log entry 1). -/
def Obligations.CommandBytesAreSentAsCommands : Prop :=
  ∀ (s : State) (d sh pw c b sc rl w l m : Bool) (x : BitVec 2) (a6 : BitVec 6) (a7 : BitVec 7), s.seq = .idle →
    let p := s.params
    ∀ ib ∈ [(Instr.clearDisplay, p.opbClear),
        (.returnHome, p.opbHome),
        (.entryModeSet d sh, p.opbEntry ||| ((if d then p.emLeft else p.emRight) ||| (if sh then p.shOn else p.shOff))),
        (.displayControl pw c b, p.opbDispctl |||
          ((if pw then p.dcPower else 0) ||| (if c then p.dcCursor else 0) ||| (if b then p.dcBlink else 0))),
        (.cursorShift sc rl x, p.opbShift ||| (0#4 ++ BitVec.ofBool sc ++ BitVec.ofBool rl ++ x)),
        (.functionSet w l m x, p.opbFset |||
          ((if w then p.fsW8 else p.fsW4) ||| (if l then p.fsL2 else p.fsL1) ||| (if m then p.fsM5x10 else p.fsM5x8) |||
            x.setWidth 8)),
        (.setCgramAddr a6, p.opbCgram ||| a6.setWidth 8),
        (.setDdramAddr a7, p.opbDdram ||| a7.setWidth 8)],
      let evs := byteTrace p s.cfg.ww s.bl ib.2 .cmd
      (Acknowledges s.bus evs → exec ib.1 s = .next (s.afterOk evs)) ∧
      ∀ n e, FailsAt s.bus n e evs → exec ib.1 s = .next (s.afterFail n e evs)

/-! ### The pipeline's micro-operations -/

/-- 44_pipeline.md R145: a strobe writes the value with enable set, holds `T_EN`, writes it with enable clear, holds `T_POST`; if
the first write fails nothing else is performed, if the second fails the closing hold is not; the two bytes differ in the enable
position and nowhere else. -/
def Obligations.StrobeRaisesThenLowersEnable : Prop :=
  ∀ (s : State) (v : Byte),
    let p := s.params
    let a := p.i2cAddr
    let bl := if s.bl then p.blBit else 0x00
    let up := (v ||| p.enBit) ||| bl
    let down := (v &&& ~~~p.enBit) ||| bl
    (s.bus.okFor 2 = true → runStmt (.xmit v) s = .done { s with
      bus := s.bus.skip 2, trace := s.trace ++ [.wrote a up, .hold .tEn, .wrote a down, .hold .tPost] }) ∧
    (∀ e, s.bus.answer = .fail e → runStmt (.xmit v) s = .aborted { s with
      bus := s.bus.skip 1, trace := s.trace ++ [.failed a up] } e) ∧
    (∀ e, s.bus.answer = .ok → s.bus.tail.answer = .fail e → runStmt (.xmit v) s = .aborted { s with
      bus := s.bus.skip 2, trace := s.trace ++ [.wrote a up, .hold .tEn, .failed a down] } e) ∧
    (p.wf = true → up ^^^ down = p.enBit)

/-- 41_initialize.md R101: a single nibble write is one strobe of the nibble in bits 7 to 4, register-select clear, followed by
`T_CMD`, in both word widths; after a failed write `T_CMD` is not performed. That `T_CMD` also follows the nibble `0x2` is the
spec's decision D8. -/
def Obligations.NibbleIsOneStrobeThenTheCommandDelay : Prop :=
  ∀ (s : State) (n : Nibble),
    let p := s.params
    let a := p.i2cAddr
    let bl := if s.bl then p.blBit else 0x00
    let v : Byte := n ++ 0#4
    let up := (v ||| p.enBit) ||| bl
    let down := (v &&& ~~~p.enBit) ||| bl
    (s.bus.okFor 2 = true → runStmt (.nib n) s = .done { s with
      bus := s.bus.skip 2,
      trace := s.trace ++ [.wrote a up, .hold .tEn, .wrote a down, .hold .tPost, .hold .tCmd] }) ∧
    (∀ e, s.bus.answer = .fail e → runStmt (.nib n) s = .aborted { s with
      bus := s.bus.skip 1, trace := s.trace ++ [.failed a up] } e) ∧
    (∀ e, s.bus.answer = .ok → s.bus.tail.answer = .fail e → runStmt (.nib n) s = .aborted { s with
      bus := s.bus.skip 2, trace := s.trace ++ [.wrote a up, .hold .tEn, .failed a down] } e)

/-- 20_memory.md R40, 44_pipeline.md R147: every bus write goes through the backlight overlay to the one address; `ok` appends
`W(v)`, `fail(e)` appends `W(v)!` and raises, and a write that is never answered leaves the encoder stuck (U9, log entry 6). -/
def Obligations.BusWriteCarriesTheBacklightOverlay : Prop :=
  ∀ (s : State) (v : Byte),
    let a := s.params.i2cAddr
    let b := v ||| (if s.bl then s.params.blBit else 0x00)
    (s.bus.answer = .ok → runStmt (.busw v) s =
      .done { s with bus := s.bus.tail, trace := s.trace ++ [.wrote a b] }) ∧
    (∀ e, s.bus.answer = .fail e → runStmt (.busw v) s =
      .aborted { s with bus := s.bus.tail, trace := s.trace ++ [.failed a b] } e) ∧
    (s.bus.answer = .silent → runStmt (.busw v) s = .hung)

/-- 40_configuration_function_set.md R91, 42_state_operations.md R113, 44_pipeline.md R155: `FSET` and `APPLY` send their base
OR'd with the payload computed from `CFG` and from all three flags of `DISP`; a hold is an event and cannot fail. -/
def Obligations.BuildersSendBaseOrPayload : Prop :=
  ∀ s : State,
    let p := s.params
    runStmt .fset s = runStmt (.write (p.opbFset |||
      ((match s.cfg.ww with | .w4 => p.fsW4 | .w8 => p.fsW8) ||| (match s.cfg.lc with | .l1 => p.fsL1 | .l2 => p.fsL2) |||
       (match s.cfg.ms with | .m5x8 => p.fsM5x8 | .m5x10 => p.fsM5x10))) .cmd) s ∧
    runStmt .apply s = runStmt (.write (p.opbDispctl |||
      ((if s.disp.power then p.dcPower else 0) ||| (if s.disp.cursor then p.dcCursor else 0) |||
       (if s.disp.blink then p.dcBlink else 0))) .cmd) s ∧
    ∀ h, runStmt (.delay h) s = .done { s with trace := s.trace ++ [.hold h] }

/-! ### What a request sends, whole-machine rules -/

/-- 20_memory.md R44: in 4-bit word width bits 7 to 4 of the byte travel in the first strobe and bits 3 to 0 in the second, each
in bits 7 to 4 of the bus byte. -/
def Obligations.HighNibbleTravelsFirst : Prop :=
  ∀ (s : State) (byte : Byte) (rs : Rs), s.params.wf = true → s.seq = .idle → s.cfg.ww = .w4 → s.bus.okFor 4 = true →
    ∃ t u1 d1 u2 d2, exec (.write byte rs) s = .next t ∧ busBytes t.trace = busBytes s.trace ++ [u1, d1, u2, d2] ∧
      u1.extractLsb' 4 4 = byte.extractLsb' 4 4 ∧ d1.extractLsb' 4 4 = byte.extractLsb' 4 4 ∧
      u2.extractLsb' 4 4 = byte.extractLsb' 0 4 ∧ d2.extractLsb' 4 4 = byte.extractLsb' 0 4

/-- 44_pipeline.md R150: in 8-bit word width the register-select position is the byte's bit OR `rs`, the enable position is 1 in
the first write and 0 in the second, the backlight position is the byte's bit OR `BL`, the read-write position is the byte's bit,
and bits 7 to 4 are carried faithfully. -/
def Obligations.EightBitOverlapsTheLowBits : Prop :=
  ∀ (s : State) (byte : Byte) (rs : Rs), s.params.wf = true → s.seq = .idle → s.cfg.ww = .w8 → s.bus.okFor 2 = true →
    let p := s.params
    ∃ t up down, exec (.write byte rs) s = .next t ∧ busBytes t.trace = busBytes s.trace ++ [up, down] ∧
      up &&& p.enBit = p.enBit ∧ down &&& p.enBit = 0 ∧
      ∀ v ∈ [up, down], v &&& 0xF0 = byte &&& 0xF0 ∧
        v &&& p.rsBit = (if rs = .data then p.rsBit else byte &&& p.rsBit) ∧
        v &&& p.blBit = (if s.bl then p.blBit else byte &&& p.blBit) ∧
        v &&& p.rwBit = byte &&& p.rwBit

/-- 44_pipeline.md R148: in 4-bit word width every byte a request puts on the bus has the backlight bit equal to `BL`, whichever
operation triggered it; in 8-bit word width that holds when `BL = 1` and can fail when `BL = 0`. -/
def Obligations.BacklightPositionByWordWidth : Prop :=
  (∀ (i : Instr) (s t : State), s.params.wf = true → s.cfg.ww = .w4 → exec i s = .next t →
    ∃ evs, t.trace = s.trace ++ evs ∧ ∀ v ∈ busBytes evs, v &&& s.params.blBit = if t.bl then s.params.blBit else 0) ∧
  (∀ (i : Instr) (s t : State), s.params.wf = true → s.cfg.ww = .w8 → t.bl = true → exec i s = .next t →
    ∃ evs, t.trace = s.trace ++ evs ∧ ∀ v ∈ busBytes evs, v &&& s.params.blBit = s.params.blBit) ∧
  ∃ (i : Instr) (s t : State) (evs : List Event), s.params.wf = true ∧ s.cfg.ww = .w8 ∧ t.bl = false ∧
    exec i s = .next t ∧ t.trace = s.trace ++ evs ∧ ∃ v ∈ busBytes evs, v &&& s.params.blBit = s.params.blBit

/-- 44_pipeline.md R149: in 4-bit word width, in `NIB` and in `BACKLIGHT`, the read-write position of every bus byte is 0. -/
def Obligations.ReadWriteBitClearInW4NibAndBacklight : Prop :=
  (∀ (i : Instr) (s t : State), s.params.wf = true → s.cfg.ww = .w4 ∨ (∃ on, i = .backlight on) → exec i s = .next t →
    ∃ evs, t.trace = s.trace ++ evs ∧ readWriteLow s.params evs) ∧
  ∀ (n : Nibble) (s t : State) (r : Run), s.params.wf = true → runStmt (.nib n) s = r →
    (r = .done t ∨ ∃ e, r = .aborted t e) → ∃ evs, t.trace = s.trace ++ evs ∧ readWriteLow s.params evs

/-- R119 and R145: a request that returns `ok` leaves the bus location with enable low. -/
def Obligations.EnableIsLowAfterSuccess : Prop :=
  ∀ (i : Instr) (s t : State), s.params.wf = true → exec i s = .next t → t.responses = s.responses ++ [.ok] →
    ∃ v, busOutput t.trace = some v ∧ v &&& s.params.enBit = 0

/-- 44_pipeline.md R156, 60_exceptions.md R170: every request's first event is a bus write; no hold precedes it. -/
def Obligations.EveryRequestStartsWithABusWrite : Prop :=
  ∀ (i : Instr) (s t : State), exec i s = .next t →
    ∃ e evs v, t.trace = s.trace ++ e :: evs ∧ e.byte? = some v ∧ e.addr? = some s.params.i2cAddr

/-- 44_pipeline.md R151: bus writes and holds of every successful statement and request. The `T_CMD` of the fourth nibble and the
handshake in 8-bit word width are log entry 18; the counts of a bare command byte are log entry 1. -/
def Obligations.SuccessfulRequestsHaveFixedCounts : Prop :=
  (∀ (x : Stmt) (s t : State), runStmt x s = .done t → writeCount t.trace = writeCount s.trace + stmtWrites s.cfg.ww x) ∧
  ∀ (i : Instr) (s t : State), exec i s = .next t → t.responses = s.responses ++ [.ok] →
    ∃ evs, t.trace = s.trace ++ evs ∧
      writeCount evs = busWrites s.cfg.ww i ∧
      holdCount .tEn evs = strobesSent s.cfg.ww i ∧
      holdCount .tPost evs = strobesSent s.cfg.ww i ∧
      holdCount .tCmd evs = nibblesSent i ∧
      holdCount .tSettle evs = if i = .init then 1 else 0

/-- 70_reset_and_hazards.md R210: the minimum duration of a successful request; with the nominal holds, 60 µs a strobe, and for
`INIT` 200.72 ms + 4 `T_CMD` in 4-bit word width and 200.48 ms + 4 `T_CMD` in 8-bit (times in nanoseconds; log
entry 18). -/
def Obligations.SuccessfulRequestsHaveMinimumDurations : Prop :=
  (∀ (i : Instr) (s t : State), exec i s = .next t → t.responses = s.responses ++ [.ok] →
    let p := s.params
    ∃ evs, t.trace = s.trace ++ evs ∧ minDuration p evs =
      strobesSent s.cfg.ww i * (p.tEn + p.tPost) + nibblesSent i * p.tCmd + (if i = .init then p.tSettle else 0)) ∧
  ∀ (s t : State), exec .init s = .next t → t.responses = s.responses ++ [.ok] →
    s.params.tEn = 50000 → s.params.tPost = 10000 → s.params.tSettle = 200000000 →
    minDuration s.params t.trace = minDuration s.params s.trace + 4 * s.params.tCmd +
      (match s.cfg.ww with | .w4 => 200720000 | .w8 => 200480000)

/-! ### State -/

/-- 60_exceptions.md R176, 41_initialize.md R102: after every request, successful or failed, `CFG` is as it was, `DISP` and `BL`
are as it was but for the one field its own setter writes, and the encoder is idle again. -/
def Obligations.RequestsWriteOnlyTheirOwnField : Prop :=
  ∀ (i : Instr) (s t : State), exec i s = .next t →
    t.cfg = s.cfg ∧ t.disp = dispAfter i s.disp ∧ t.bl = blAfter i s.bl ∧ t.seq = .idle ∧ t.params = s.params ∧ t.port = s.port

/-- 44_pipeline.md R141: the raw requests leave `CFG`, `DISP` and `BL` alone, whatever byte they send and whatever the bus answers;
and the next `APPLY`, from any of the three setters or from `INIT`, sends `DISP`, not the byte that was sent. (The events of `INIT`:
log entry 18.) -/
def Obligations.RawRequestsLeaveTheShadowAlone : Prop :=
  ∀ (i : Instr) (s t : State), ((∃ k data, i = .cmd k data) ∨ ∃ b rs, i = .write b rs) → exec i s = .next t →
    (t.cfg = s.cfg ∧ t.disp = s.disp ∧ t.bl = s.bl) ∧
    let p := s.params
    let send := fun b => byteTrace p s.cfg.ww s.bl b .cmd
    let applied := fun d : Disp => send (p.opbDispctl ||| p.dcPayload d)
    (∀ (on : Bool) (u : State), exec (.power on) t = .next u → u.responses = t.responses ++ [.ok] →
      u.trace = t.trace ++ applied ⟨on, s.disp.cursor, s.disp.blink⟩) ∧
    (∀ (on : Bool) (u : State), exec (.cursor on) t = .next u → u.responses = t.responses ++ [.ok] →
      u.trace = t.trace ++ applied ⟨s.disp.power, on, s.disp.blink⟩) ∧
    (∀ (on : Bool) (u : State), exec (.blink on) t = .next u → u.responses = t.responses ++ [.ok] →
      u.trace = t.trace ++ applied ⟨s.disp.power, s.disp.cursor, on⟩) ∧
    ∀ u : State, exec .init t = .next u → u.responses = t.responses ++ [.ok] →
      u.trace = t.trace ++ (nibTrace p s.bl 0x3 ++ nibTrace p s.bl 0x3 ++ nibTrace p s.bl 0x3 ++ nibTrace p s.bl 0x2 ++
        send (p.opbFset ||| p.fsPayload s.cfg) ++ applied s.disp ++ send p.opbClear ++
        send (p.opbEntry ||| (p.emLeft ||| p.shOff)) ++ [.hold .tSettle])

/-- 10_state.md R22: `CFG` is loaded from the straps at reset and no step, whole or micro, changes it. -/
def Obligations.ConfigurationNeverChanges : Prop :=
  (∀ p : Params, (State.resetWith p).cfg = p.straps) ∧
  (∀ s t : State, step s = .next t → t.cfg = s.cfg ∧ t.params = s.params) ∧
  ∀ s t : State, microStep s = .next t → t.cfg = s.cfg ∧ t.params = s.params

/-- 42_state_operations.md R114: whatever the bus answers, a setter writes its own flag and keeps the other two; with the default
encoding the payload of `DISP` after it differs from the payload before it in at most the setter's own bit; and the same setter
again, both successful, leaves `DISP` as the first left it and sends the same bytes with the same holds: the whole display-control
command, twice. -/
def Obligations.SettersAreIdempotentOnDisp : Prop :=
  (∀ (on : Bool) (s t : State), exec (.power on) s = .next t →
    t.disp.power = on ∧ t.disp.cursor = s.disp.cursor ∧ t.disp.blink = s.disp.blink ∧
      (s.params.standardEncoding →
        (s.params.dcPayload t.disp ^^^ s.params.dcPayload s.disp) &&& ~~~s.params.dcPower = 0)) ∧
  (∀ (on : Bool) (s t : State), exec (.cursor on) s = .next t →
    t.disp.cursor = on ∧ t.disp.power = s.disp.power ∧ t.disp.blink = s.disp.blink ∧
      (s.params.standardEncoding →
        (s.params.dcPayload t.disp ^^^ s.params.dcPayload s.disp) &&& ~~~s.params.dcCursor = 0)) ∧
  (∀ (on : Bool) (s t : State), exec (.blink on) s = .next t →
    t.disp.blink = on ∧ t.disp.power = s.disp.power ∧ t.disp.cursor = s.disp.cursor ∧
      (s.params.standardEncoding →
        (s.params.dcPayload t.disp ^^^ s.params.dcPayload s.disp) &&& ~~~s.params.dcBlink = 0)) ∧
  ∀ (on : Bool) (s t u : State), ∀ i ∈ [Instr.power on, .cursor on, .blink on],
    exec i s = .next t → t.responses = s.responses ++ [.ok] → exec i t = .next u → u.responses = t.responses ++ [.ok] →
    let evs := byteTrace s.params s.cfg.ww s.bl (s.params.opbDispctl ||| s.params.dcPayload t.disp) .cmd
    u.disp = t.disp ∧ t.trace = s.trace ++ evs ∧ u.trace = t.trace ++ evs

/-! ### The bus failure -/

/-- 60_exceptions.md R175: whatever a request does when every write is acknowledged, if instead its write `n` (counted from 0)
fails, the trace stands up to that write, the failed write is the last event, no hold and no write follows, the encoder is idle,
the response is `err(e)` and the state is the one the request's own assignments left. -/
def Obligations.BusFailureCutsTheRequestShort : Prop :=
  ∀ (i : Instr) (s t : State) (evs : List Event) (n : Nat) (e : BusErr) (later : List BusAnswer) (rest : BusAnswer),
    exec i { s with bus := ⟨[], .ok⟩ } = .next t → t.trace = s.trace ++ evs → n < writeCount evs →
    exec i { s with bus := ⟨List.replicate n .ok ++ .fail e :: later, rest⟩ } =
      .next { t with bus := ⟨later, rest⟩, trace := s.trace ++ cutAt n evs, responses := s.responses ++ [.err e], seq := .idle }

/-- 93_implementation_defined.md U9: a write that never gets an answer leaves the encoder stuck; the model says so with a named
fault (log entry 6). -/
def Obligations.SilentBusIsStuck : Prop :=
  ∀ (i : Instr) (s t : State) (evs : List Event) (n : Nat) (later : List BusAnswer) (rest : BusAnswer),
    exec i { s with bus := ⟨[], .ok⟩ } = .next t → t.trace = s.trace ++ evs → n < writeCount evs →
    exec i { s with bus := ⟨List.replicate n .ok ++ .silent :: later, rest⟩ } = .fault .busNeverAnswers

/-- 00_scope.md R11, 60_exceptions.md R174: a request answers exactly one response; with `ok` none of its writes failed, with
`err(e)` its last event, and no other, is the failed write. -/
def Obligations.FailedWriteIsTheLastEvent : Prop :=
  ∀ (i : Instr) (s t : State), exec i s = .next t →
    ∃ evs, t.trace = s.trace ++ evs ∧
      ((t.responses = s.responses ++ [.ok] ∧ ∀ x ∈ evs, x.isFailed = false) ∨
       ∃ e before a v, t.responses = s.responses ++ [.err e] ∧ evs = before ++ [.failed a v] ∧
         ∀ x ∈ before, x.isFailed = false)

/-- 60_exceptions.md R178, 10_state.md R32: what was sent and answered before, a failure included, and what is presented later
change nothing of what a request does. -/
def Obligations.EarlierTrafficDoesNotMatter : Prop :=
  ∀ (i : Instr) (s t : State) (evs : List Event) (r : Response), exec i s = .next t →
    t.trace = s.trace ++ evs → t.responses = s.responses ++ [r] →
    ∀ (trace : List Event) (responses : List Response) (port : List PortItem),
      exec i { s with trace := trace, responses := responses, port := port } =
        .next { t with trace := trace ++ evs, responses := responses ++ [r], port := port }

/-! ### Steps, the request port, SEQ -/

/-- A step runs the decoded instruction (the port and the atomic step are the model's, log entries 2 and 10): with an idle encoder it takes the first item of the port and is that instruction's
meaning in the state without the item; a presented opcode-table word is taken next. -/
def Obligations.StepRunsTheDecodedRequest : Prop :=
  (∀ (s : State) (item : PortItem) (later : List PortItem) (i : Instr), s.seq = .idle → s.port = item :: later →
    decodeItem item = .instr i → step s = exec i { s with port := later }) ∧
  ∀ (s : State) (nbits w : Nat) (i : Instr), decodeTableWord nbits w = some i →
    step (s.withFetchWord nbits w) = exec i { s with seq := .idle }

/-- 70_reset_and_hazards.md R209: no request is accepted while `SEQ` is not idle: a request presented then is refused, and a step
finishes the request in progress, consumes nothing from the port and answers one response. With nothing presented an idle
encoder waits (the model's choice, log entry 7). -/
def Obligations.BusyEncoderAcceptsNothing : Prop :=
  (∀ (i : Instr) (s : State), s.seq ≠ .idle → (∀ row col chars, i ≠ .text row col chars) → exec i s = .refused .busy) ∧
  (∀ (i : Instr) (s t : State), s.seq ≠ .idle → exec i s ≠ .next t) ∧
  (∀ (s t : State), s.seq ≠ .idle → step s = .next t →
    t.port = s.port ∧ t.seq = .idle ∧ ∃ r, t.responses = s.responses ++ [r]) ∧
  ∀ s : State, s.seq = .idle → s.port = [] → step s = .next s

/-- 10_state.md R27: the atomic step and the micro-steps driven by `SEQ` are the same machine: from every state some number of
micro-steps ends exactly where the step ends, and at every micro-step in between the encoder is not idle. The micro-steps are
the model's reading of the rules' pseudocode (decision D16, log entry 2). -/
def Obligations.MicroStepsAgreeWithTheAtomicStep : Prop :=
  ∀ s : State, ∃ n, microRun (n + 1) s = step s ∧
    ∀ m, 0 < m → m ≤ n → ∃ u, microRun m s = .next u ∧ u.seq ≠ .idle

/-- 30_encoding.md R78: a word that is in no row of the table is reserved and is refused by name, and a word with `op` from `0xA`
on is in no row. That it is refused is the spec's decision D13. -/
def Obligations.ReservedWordsAreRefused : Prop :=
  (∀ (w : ReqWord) (text : List Byte), (PortItem.word w text).inTable = false →
    ∃ why, ∀ (s : State) (later : List PortItem), s.seq = .idle → s.port = .word w text :: later →
      step s = .refused (.reserved why)) ∧
  ∀ (w : ReqWord) (text : List Byte), 0xA0000#20 ≤ w → (PortItem.word w text).inTable = false

/-! ### Encodings -/

/-- Decode of encode is the instruction, for every instruction and every operand. -/
def Obligations.DecodeOfEncodeIsTheInstruction : Prop :=
  ∀ i : Instr, decodeItem (encode i) = .instr i

/-- Encode of decode is the item: each word has one meaning. -/
def Obligations.EncodeOfDecodeIsTheWord : Prop :=
  ∀ (item : PortItem) (i : Instr), item.wf = true → decodeItem item = .instr i → encode i = item

/-- 30_encoding.md R62, R64 to R71: an item decodes to an instruction exactly when it is one of the opcode table's rows, and no
two rows overlap. -/
def Obligations.DecoderAcceptsExactlyTheTable : Prop :=
  (∀ item : PortItem, item.inTable = true ↔ ∃ i, decodeItem item = .instr i) ∧
  (requestRows.Pairwise fun r q => ∀ w : ReqWord, ¬ (r.holds w = true ∧ q.holds w = true)) ∧
  commandRows.Pairwise fun r q => ∀ b : Byte, ¬ (r.holds b = true ∧ q.holds b = true)

/-- A few words written out from 30_encoding.md R62 and the command-byte formats R65 to R71, and four words that decode to nothing:
two reserved request words (R78; log entry 16 for the word's binary form) and the command bytes `0x00` (R79) and `0x03`. That
`0x03` is no command byte is the model's inference from R65 (log entry 17). -/
def Obligations.SampleWordsDecode : Prop :=
  decodeTableWord 24 0x00000 = some .init ∧
  decodeTableWord 24 0x20003 = some (.entry .left .shift) ∧
  decodeTableWord 24 0x40001 = some (.cursor true) ∧
  decodeTableWord 24 0x60001 = some (.backlight true) ∧
  decodeTableWord 24 0x70203 = some (.text 2 3 []) ∧
  decodeTableWord 24 0x80100 = some (.cmd .returnHome 0) ∧
  decodeTableWord 24 0x901A5 = some (.write 0xA5 .data) ∧
  decodeTableWord 24 0x30002 = none ∧
  decodeTableWord 24 0xA0000 = none ∧
  decodeTableWord 8 0b00000110 = some (.entryModeSet true false) ∧
  decodeTableWord 8 0b00001100 = some (.displayControl true false false) ∧
  decodeTableWord 8 0b00101000 = some (.functionSet false true false 0) ∧
  decodeTableWord 8 0b11000011 = some (.setDdramAddr 0x43) ∧
  decodeTableWord 8 0 = none ∧
  decodeTableWord 8 3 = none

/-- 44_pipeline.md R140: every builder is an instance of the raw command: `CLEAR` is `CMD 0, 0`; `ENTRY` is `CMD 2, payload`;
`APPLY` is `CMD 3, payload`, so a setter is its assignment followed by that; `FSET` is `CMD 5, payload`; the address step of
`TEXT` is `CMD 7, offset`. -/
def Obligations.BuildersAreRawCommands : Prop :=
  ∀ s : State,
    exec .clear s = exec (.cmd .clearDisplay 0) s ∧
    (∀ dir sh, exec (.entry dir sh) s = exec (.cmd .entryModeSet (s.params.emPayload dir sh)) s) ∧
    (∀ on, exec (.power on) s = exec (.cmd .displayControl (s.params.dcPayload { s.disp with power := on }))
      { s with disp := { s.disp with power := on } }) ∧
    (∀ on, exec (.cursor on) s = exec (.cmd .displayControl (s.params.dcPayload { s.disp with cursor := on }))
      { s with disp := { s.disp with cursor := on } }) ∧
    (∀ on, exec (.blink on) s = exec (.cmd .displayControl (s.params.dcPayload { s.disp with blink := on }))
      { s with disp := { s.disp with blink := on } }) ∧
    (s.seq = .idle → complete (runStmts [.fset] s) = exec (.cmd .functionSet (s.params.fsPayload s.cfg)) s) ∧
    ∀ row col, exec (.text row col []) s = exec (.cmd .setDdramAddr (s.params.ddramOffset row col)) s

/-- With the default encoding a command byte that decodes is transmitted unchanged as a command. That a command byte presented
alone means its transmission is the model's choice (log entry 1). -/
def Obligations.CommandByteIsSentUnchanged : Prop :=
  ∀ (s : State) (b : Byte) (i : Instr), s.params.standardEncoding → decodeCommandByte b = .instr i →
    exec i s = exec (.write b .cmd) s

/-- 30_encoding.md R66, R67, R69, 40_configuration_function_set.md R92: the command-byte formats with the default parameters, and
the function-set payload in any order of its fields, from which each field can be recovered. -/
def Obligations.CommandByteFormats : Prop :=
  ∀ p : Params, p.standardEncoding →
    (p.cmdByte .entryModeSet (p.emPayload .right .noShift) = 0x04 ∧ p.cmdByte .entryModeSet (p.emPayload .right .shift) = 0x05 ∧
     p.cmdByte .entryModeSet (p.emPayload .left .noShift) = 0x06 ∧ p.cmdByte .entryModeSet (p.emPayload .left .shift) = 0x07) ∧
    (∀ d : Disp, p.cmdByte .displayControl (p.dcPayload d) =
      0b00001#5 ++ BitVec.ofBool d.power ++ BitVec.ofBool d.cursor ++ BitVec.ofBool d.blink) ∧
    (∀ c : Cfg, p.cmdByte .functionSet (p.fsPayload c) =
      0b001#3 ++ BitVec.ofBool (decide (c.ww = .w8)) ++ BitVec.ofBool (decide (c.lc = .l2)) ++
        BitVec.ofBool (decide (c.ms = .m5x10)) ++ 0#2) ∧
    (∀ c : Cfg, p.fsPayload c = p.rawMatrix c.ms ||| p.rawLines c.lc ||| p.rawWidth c.ww) ∧
    ∀ c c' : Cfg, p.fsPayload c = p.fsPayload c' → c = c'

/-- 43_text_placement.md R131, R133: the DDRAM-address function, the aliases, and the wrap at 256, which is the spec's decision
D10 (log entry 11). -/
def Obligations.DdramAddressTable : Prop :=
  ∀ p : Params, p.standardEncoding →
    (∀ col : Byte, p.ddramOffset 1 col = col ∧ p.ddramOffset 2 col = 0x40 + col ∧ p.ddramOffset 3 col = 0x14 + col ∧
      p.ddramOffset 4 col = 0x54 + col) ∧
    (∀ row col : Byte, row ≠ 1 → row ≠ 2 → row ≠ 3 → row ≠ 4 → p.ddramOffset row col = col) ∧
    (∀ row col : Byte, p.ddramCmd row col = 0x80 ||| p.ddramOffset row col) ∧
    p.ddramCmd 3 5 = 0x99 ∧ p.ddramCmd 1 0x14 = p.ddramCmd 3 0 ∧ p.ddramCmd 1 0x40 = p.ddramCmd 2 0 ∧
    p.ddramCmd 2 0x40 = p.ddramCmd 1 0 ∧ p.ddramOffset 2 0xC5 = 0x05 ∧ p.ddramCmd 2 0xC5 = 0x85

/-- 43_text_placement.md R132: a row outside 1 to 4 raises nothing and does exactly what row 1 does. -/
def Obligations.UnknownRowIsRowOne : Prop :=
  ∀ (s : State) (row col : Byte) (chars : List Byte), row ≠ 1 → row ≠ 2 → row ≠ 3 → row ≠ 4 →
    exec (.text row col chars) s = exec (.text 1 col chars) s

/-- 30_encoding.md R83, R82: each pseudo-instruction's expansion, and sample lines of the assembler (the
spec's decision D19, log entry 15). -/
def Obligations.AssemblerNamesRequests : Prop :=
  (∀ dir, (Pseudo.entryDir dir).expand = .entry dir .noShift) ∧ Pseudo.home.expand = .cmd .returnHome 0 ∧
  (∀ row col, (Pseudo.goto row col).expand = .text row col []) ∧ (∀ b, (Pseudo.putc b).expand = .write b .data) ∧
  assembleLine "CURSOR    ON".toList = some (.request (.cursor true)) ∧
  assembleLine "TEXT      2, 3, \"Hi\"".toList = some (.request (.text 2 3 [0x48, 0x69])) ∧
  assembleLine "CMD RETURN_HOME, 0".toList = some (.request (.cmd .returnHome 0)) ∧
  assembleLine "WRITE 0xA5, DATA".toList = some (.request (.write 0xA5 .data)) ∧
  assembleLine ".config W4, L2, M5X8".toList = some (.config ⟨.w4, .l2, .m5x8⟩)

/-! ### Traces -/

/-- 00_scope.md R11, 44_pipeline.md R155, 41_initialize.md R101: two traces that are the same carry the same bytes and take at
least the same time; a hold of zero is no event, so with `T_CMD = 0` a handshake nibble is its strobe alone; two holds in a row
add. -/
def Obligations.SameTracesCarryTheSameBytes : Prop :=
  (∀ (p : Params) (t u : List Event), sameTrace p t u → busBytes t = busBytes u ∧ minDuration p t = minDuration p u) ∧
  (∀ (p : Params) (bl : Bool) (n : Nibble), p.tCmd = 0 → sameTrace p (nibTrace p bl n) (strobeTrace p bl (placeNibble n))) ∧
  ∀ (p : Params) (t u : List Event) (g h : Hold), normalise p (t ++ .hold g :: .hold h :: u) =
    normalise p (t ++ .hold h :: .hold g :: u)

/-! ### Reset and the invariant -/

/-- 70_reset_and_hazards.md R190, R191: after reset `CFG` holds the straps, `DISP` is (on, off, off), `BL` is `BL_RESET`, `SEQ` is
idle, and no bus write and no hold has been made, so nothing is known of the bridge chip's output. (on, off, off) is the spec's
decision D6; a reset input in the middle of a run is the model's choice (log entry 23). -/
def Obligations.ResetState : Prop :=
  (∀ p : Params, (State.resetWith p).cfg = p.straps ∧ (State.resetWith p).disp = p.dispReset ∧
    (State.resetWith p).bl = p.blReset ∧ (State.resetWith p).seq = .idle ∧ (State.resetWith p).trace = [] ∧
    busOutput (State.resetWith p).trace = none) ∧
  (∀ (c : Cfg) (s : State), (s.applyReset c).cfg = c ∧ (s.applyReset c).disp = s.params.dispReset ∧
    (s.applyReset c).bl = s.params.blReset ∧ (s.applyReset c).seq = .idle ∧ (s.applyReset c).trace = s.trace) ∧
  State.reset.disp = ⟨true, false, false⟩ ∧ State.reset.params.standardEncoding

/-- The invariant holds after reset, for all parameters that R8 allows; the default encoding is one of them. -/
def Obligations.InvariantHoldsAtReset : Prop :=
  (∀ p : Params, p.wf = true → Inv (State.resetWith p)) ∧ ∀ p : Params, p.standardEncoding → p.wf = true

/-- The invariant (well-formed parameters, `CFG` as strapped, `SEQ` idle, every bus write to the one address, the read-write bit
never set in 4-bit word width) is kept by every step. -/
def Obligations.EveryStepKeepsTheInvariant : Prop :=
  ∀ s t : State, Inv s → step s = .next t → Inv t

/-- 20_memory.md R51, R53: a step only adds to the trace and to the responses; what was sent stays sent. -/
def Obligations.StepsOnlyAppend : Prop :=
  ∀ s t : State, step s = .next t → s.trace <+: t.trace ∧ s.responses <+: t.responses ∧ t.port <:+ s.port
end

