-- ==== Sys2Proof/Laws/State.lean ====
section
/-! SUPPORT. Laws/State.lean: one lemma per field per update of the state, true by rfl. -/

namespace Sys2Proof.Machine

variable (s : State)

/-! `emit` -/
@[simp] theorem emit_cfg (e : Event) : (s.emit e).cfg = s.cfg := rfl
@[simp] theorem emit_disp (e : Event) : (s.emit e).disp = s.disp := rfl
@[simp] theorem emit_bl (e : Event) : (s.emit e).bl = s.bl := rfl
@[simp] theorem emit_seq (e : Event) : (s.emit e).seq = s.seq := rfl
@[simp] theorem emit_params (e : Event) : (s.emit e).params = s.params := rfl
@[simp] theorem emit_port (e : Event) : (s.emit e).port = s.port := rfl
@[simp] theorem emit_bus (e : Event) : (s.emit e).bus = s.bus := rfl
@[simp] theorem emit_trace (e : Event) : (s.emit e).trace = s.trace ++ [e] := rfl
@[simp] theorem emit_responses (e : Event) : (s.emit e).responses = s.responses := rfl

/-! `busMoved` -/
@[simp] theorem busMoved_cfg : s.busMoved.cfg = s.cfg := rfl
@[simp] theorem busMoved_disp : s.busMoved.disp = s.disp := rfl
@[simp] theorem busMoved_bl : s.busMoved.bl = s.bl := rfl
@[simp] theorem busMoved_seq : s.busMoved.seq = s.seq := rfl
@[simp] theorem busMoved_params : s.busMoved.params = s.params := rfl
@[simp] theorem busMoved_port : s.busMoved.port = s.port := rfl
@[simp] theorem busMoved_bus : s.busMoved.bus = s.bus.tail := rfl
@[simp] theorem busMoved_trace : s.busMoved.trace = s.trace := rfl
@[simp] theorem busMoved_responses : s.busMoved.responses = s.responses := rfl

/-! `setPower` -/
@[simp] theorem setPower_cfg (on : Bool) : (s.setPower on).cfg = s.cfg := rfl
@[simp] theorem setPower_disp (on : Bool) : (s.setPower on).disp = { s.disp with power := on } := rfl
@[simp] theorem setPower_bl (on : Bool) : (s.setPower on).bl = s.bl := rfl
@[simp] theorem setPower_seq (on : Bool) : (s.setPower on).seq = s.seq := rfl
@[simp] theorem setPower_params (on : Bool) : (s.setPower on).params = s.params := rfl
@[simp] theorem setPower_port (on : Bool) : (s.setPower on).port = s.port := rfl
@[simp] theorem setPower_bus (on : Bool) : (s.setPower on).bus = s.bus := rfl
@[simp] theorem setPower_trace (on : Bool) : (s.setPower on).trace = s.trace := rfl
@[simp] theorem setPower_responses (on : Bool) : (s.setPower on).responses = s.responses := rfl

/-! `setCursor` -/
@[simp] theorem setCursor_cfg (on : Bool) : (s.setCursor on).cfg = s.cfg := rfl
@[simp] theorem setCursor_disp (on : Bool) : (s.setCursor on).disp = { s.disp with cursor := on } := rfl
@[simp] theorem setCursor_bl (on : Bool) : (s.setCursor on).bl = s.bl := rfl
@[simp] theorem setCursor_seq (on : Bool) : (s.setCursor on).seq = s.seq := rfl
@[simp] theorem setCursor_params (on : Bool) : (s.setCursor on).params = s.params := rfl
@[simp] theorem setCursor_port (on : Bool) : (s.setCursor on).port = s.port := rfl
@[simp] theorem setCursor_bus (on : Bool) : (s.setCursor on).bus = s.bus := rfl
@[simp] theorem setCursor_trace (on : Bool) : (s.setCursor on).trace = s.trace := rfl
@[simp] theorem setCursor_responses (on : Bool) : (s.setCursor on).responses = s.responses := rfl

/-! `setBlink` -/
@[simp] theorem setBlink_cfg (on : Bool) : (s.setBlink on).cfg = s.cfg := rfl
@[simp] theorem setBlink_disp (on : Bool) : (s.setBlink on).disp = { s.disp with blink := on } := rfl
@[simp] theorem setBlink_bl (on : Bool) : (s.setBlink on).bl = s.bl := rfl
@[simp] theorem setBlink_seq (on : Bool) : (s.setBlink on).seq = s.seq := rfl
@[simp] theorem setBlink_params (on : Bool) : (s.setBlink on).params = s.params := rfl
@[simp] theorem setBlink_port (on : Bool) : (s.setBlink on).port = s.port := rfl
@[simp] theorem setBlink_bus (on : Bool) : (s.setBlink on).bus = s.bus := rfl
@[simp] theorem setBlink_trace (on : Bool) : (s.setBlink on).trace = s.trace := rfl
@[simp] theorem setBlink_responses (on : Bool) : (s.setBlink on).responses = s.responses := rfl

/-! `setBl` -/
@[simp] theorem setBl_cfg (on : Bool) : (s.setBl on).cfg = s.cfg := rfl
@[simp] theorem setBl_disp (on : Bool) : (s.setBl on).disp = s.disp := rfl
@[simp] theorem setBl_bl (on : Bool) : (s.setBl on).bl = on := rfl
@[simp] theorem setBl_seq (on : Bool) : (s.setBl on).seq = s.seq := rfl
@[simp] theorem setBl_params (on : Bool) : (s.setBl on).params = s.params := rfl
@[simp] theorem setBl_port (on : Bool) : (s.setBl on).port = s.port := rfl
@[simp] theorem setBl_bus (on : Bool) : (s.setBl on).bus = s.bus := rfl
@[simp] theorem setBl_trace (on : Bool) : (s.setBl on).trace = s.trace := rfl
@[simp] theorem setBl_responses (on : Bool) : (s.setBl on).responses = s.responses := rfl

/-! `returnOk` -/
@[simp] theorem returnOk_cfg : (returnOk s).cfg = s.cfg := rfl
@[simp] theorem returnOk_disp : (returnOk s).disp = s.disp := rfl
@[simp] theorem returnOk_bl : (returnOk s).bl = s.bl := rfl
@[simp] theorem returnOk_seq : (returnOk s).seq = .idle := rfl
@[simp] theorem returnOk_params : (returnOk s).params = s.params := rfl
@[simp] theorem returnOk_port : (returnOk s).port = s.port := rfl
@[simp] theorem returnOk_bus : (returnOk s).bus = s.bus := rfl
@[simp] theorem returnOk_trace : (returnOk s).trace = s.trace := rfl
@[simp] theorem returnOk_responses : (returnOk s).responses = s.responses ++ [.ok] := rfl

/-! `takeBusFailure` -/
@[simp] theorem takeBusFailure_cfg (e : BusErr) : (takeBusFailure e s).cfg = s.cfg := rfl
@[simp] theorem takeBusFailure_disp (e : BusErr) : (takeBusFailure e s).disp = s.disp := rfl
@[simp] theorem takeBusFailure_bl (e : BusErr) : (takeBusFailure e s).bl = s.bl := rfl
@[simp] theorem takeBusFailure_seq (e : BusErr) : (takeBusFailure e s).seq = .idle := rfl
@[simp] theorem takeBusFailure_params (e : BusErr) : (takeBusFailure e s).params = s.params := rfl
@[simp] theorem takeBusFailure_port (e : BusErr) : (takeBusFailure e s).port = s.port := rfl
@[simp] theorem takeBusFailure_bus (e : BusErr) : (takeBusFailure e s).bus = s.bus := rfl
@[simp] theorem takeBusFailure_trace (e : BusErr) : (takeBusFailure e s).trace = s.trace := rfl
@[simp] theorem takeBusFailure_responses (e : BusErr) : (takeBusFailure e s).responses = s.responses ++ [.err e] := rfl

/-! `present` -/
@[simp] theorem present_cfg (item : PortItem) : (s.present item).cfg = s.cfg := rfl
@[simp] theorem present_disp (item : PortItem) : (s.present item).disp = s.disp := rfl
@[simp] theorem present_bl (item : PortItem) : (s.present item).bl = s.bl := rfl
@[simp] theorem present_seq (item : PortItem) : (s.present item).seq = .idle := rfl
@[simp] theorem present_params (item : PortItem) : (s.present item).params = s.params := rfl
@[simp] theorem present_port (item : PortItem) : (s.present item).port = item :: s.port := rfl
@[simp] theorem present_bus (item : PortItem) : (s.present item).bus = s.bus := rfl
@[simp] theorem present_trace (item : PortItem) : (s.present item).trace = s.trace := rfl
@[simp] theorem present_responses (item : PortItem) : (s.present item).responses = s.responses := rfl

/-! `enter` -/
@[simp] theorem enter_cfg (xs : List Stmt) : (s.enter xs).cfg = s.cfg := rfl
@[simp] theorem enter_disp (xs : List Stmt) : (s.enter xs).disp = s.disp := rfl
@[simp] theorem enter_bl (xs : List Stmt) : (s.enter xs).bl = s.bl := rfl
@[simp] theorem enter_seq (xs : List Stmt) : (s.enter xs).seq = s.seq.push xs := rfl
@[simp] theorem enter_params (xs : List Stmt) : (s.enter xs).params = s.params := rfl
@[simp] theorem enter_port (xs : List Stmt) : (s.enter xs).port = s.port := rfl
@[simp] theorem enter_bus (xs : List Stmt) : (s.enter xs).bus = s.bus := rfl
@[simp] theorem enter_trace (xs : List Stmt) : (s.enter xs).trace = s.trace := rfl
@[simp] theorem enter_responses (xs : List Stmt) : (s.enter xs).responses = s.responses := rfl

/-! reset -/
@[simp] theorem resetWith_cfg (p : Params) : (State.resetWith p).cfg = p.straps := rfl
@[simp] theorem resetWith_disp (p : Params) : (State.resetWith p).disp = p.dispReset := rfl
@[simp] theorem resetWith_bl (p : Params) : (State.resetWith p).bl = p.blReset := rfl
@[simp] theorem resetWith_seq (p : Params) : (State.resetWith p).seq = .idle := rfl
@[simp] theorem resetWith_params (p : Params) : (State.resetWith p).params = p := rfl
@[simp] theorem resetWith_port (p : Params) : (State.resetWith p).port = [] := rfl
@[simp] theorem resetWith_bus (p : Params) : (State.resetWith p).bus = ⟨[], .ok⟩ := rfl
@[simp] theorem resetWith_trace (p : Params) : (State.resetWith p).trace = [] := rfl
@[simp] theorem resetWith_responses (p : Params) : (State.resetWith p).responses = [] := rfl

/-! `applyReset` -/
@[simp] theorem applyReset_cfg (c : Cfg) : (s.applyReset c).cfg = c := rfl
@[simp] theorem applyReset_disp (c : Cfg) : (s.applyReset c).disp = s.params.dispReset := rfl
@[simp] theorem applyReset_bl (c : Cfg) : (s.applyReset c).bl = s.params.blReset := rfl
@[simp] theorem applyReset_seq (c : Cfg) : (s.applyReset c).seq = .idle := rfl
@[simp] theorem applyReset_params (c : Cfg) : (s.applyReset c).params = { s.params with straps := c } := rfl
@[simp] theorem applyReset_port (c : Cfg) : (s.applyReset c).port = s.port := rfl
@[simp] theorem applyReset_bus (c : Cfg) : (s.applyReset c).bus = s.bus := rfl
@[simp] theorem applyReset_trace (c : Cfg) : (s.applyReset c).trace = s.trace := rfl
@[simp] theorem applyReset_responses (c : Cfg) : (s.applyReset c).responses = s.responses := rfl

end Sys2Proof.Machine
end

