-- ==== Sys2Proof/Laws/Play.lean ====
section
/-! SUPPORT. Laws/Play.lean: what a request does, said once. Every micro-sequence is a fixed list of bus writes and holds played
against the bus (`play`); each shared operation and each instruction is one such list (`exec_eq_play`); and a played list ends
in one of three ways (`play_done`, `play_aborted`, `play_hung`). -/

namespace Sys2Proof.Machine

/-- Perform a list of bus writes and holds, in order. -/
def play : List Event → State → Run
  | [], s => .done s
  | .wrote _ v :: t, s => (busPort v s).andThen (play t)
  | .failed _ v :: t, s => (busPort v s).andThen (play t)
  | .hold h :: t, s => (delay h s).andThen (play t)

/-- The events of `t` are acknowledged writes to `a`, and holds. -/
def AllTo (a : BusAddr) (t : List Event) : Prop := ∀ e ∈ t, (∃ v, e = .wrote a v) ∨ ∃ h, e = .hold h

/-! ### Runs -/

@[simp] theorem andThen_done (s : State) (f : State → Run) : (Run.done s).andThen f = f s := rfl
@[simp] theorem andThen_aborted (s : State) (e : BusErr) (f : State → Run) :
    (Run.aborted s e).andThen f = .aborted s e := rfl
@[simp] theorem andThen_hung (f : State → Run) : Run.hung.andThen f = .hung := rfl

theorem andThen_assoc (r : Run) (f g : State → Run) :
    (r.andThen f).andThen g = r.andThen fun s => (f s).andThen g := by
  cases r <;> rfl

theorem andThen_congr {r : Run} {f g : State → Run} (h : ∀ t, r = .done t → f t = g t) : r.andThen f = r.andThen g := by
  cases r with
  | done t => exact h t rfl
  | aborted t e => rfl
  | hung => rfl

@[simp] theorem complete_done (s : State) : complete (.done s) = .next (returnOk s) := rfl
@[simp] theorem complete_aborted (s : State) (e : BusErr) : complete (.aborted s e) = .next (takeBusFailure e s) := rfl
@[simp] theorem complete_hung : complete .hung = .fault .busNeverAnswers := rfl

theorem play_append (t u : List Event) (s : State) : play (t ++ u) s = (play t s).andThen (play u) := by
  induction t generalizing s with
  | nil => rfl
  | cons e t ih =>
    cases e <;> simp only [List.cons_append, play, andThen_assoc] <;> exact andThen_congr fun w _ => ih w

/-! ### The bus -/

@[simp] theorem okFor_zero (b : Bus) : b.okFor 0 = true := rfl
@[simp] theorem okFor_succ (n : Nat) (b : Bus) :
    b.okFor (n + 1) = (decide (b.answer = .ok) && b.tail.okFor n) := rfl
@[simp] theorem skip_zero (b : Bus) : b.skip 0 = b := rfl
@[simp] theorem skip_succ (n : Nat) (b : Bus) : b.skip (n + 1) = b.tail.skip n := rfl

theorem skip_add (m n : Nat) (b : Bus) : b.skip (m + n) = (b.skip m).skip n := by
  induction m generalizing b with
  | zero => simp
  | succ m ih => rw [Nat.succ_add]; simp [ih]

/-- `BusPort` ends in exactly the way the bus answers (20_memory.md R40). -/
theorem busPort_ok {v : Byte} {s : State} (h : s.bus.answer = .ok) :
    busPort v s = .done (s.busMoved.emit (.wrote s.params.i2cAddr v)) := by simp [busPort, h]

theorem busPort_fail {v : Byte} {s : State} {e : BusErr} (h : s.bus.answer = .fail e) :
    busPort v s = .aborted (s.busMoved.emit (.failed s.params.i2cAddr v)) e := by simp [busPort, h]

theorem busPort_silent {v : Byte} {s : State} (h : s.bus.answer = .silent) : busPort v s = .hung := by
  simp [busPort, h]

/-! ### Traces -/

@[simp] theorem writeCount_nil : writeCount [] = 0 := rfl
@[simp] theorem writeCount_wrote (a : BusAddr) (v : Byte) (t : List Event) :
    writeCount (.wrote a v :: t) = writeCount t + 1 := by
  simp [writeCount, List.countP_cons, Event.isWrote]
@[simp] theorem writeCount_failed (a : BusAddr) (v : Byte) (t : List Event) :
    writeCount (.failed a v :: t) = writeCount t := by
  simp [writeCount, Event.isWrote]
@[simp] theorem writeCount_hold (h : Hold) (t : List Event) :
    writeCount (.hold h :: t) = writeCount t := by
  simp [writeCount, Event.isWrote]
@[simp] theorem writeCount_append (t u : List Event) : writeCount (t ++ u) = writeCount t + writeCount u := by
  simp [writeCount]

@[simp] theorem allTo_nil (a : BusAddr) : AllTo a [] := by simp [AllTo]
@[simp] theorem allTo_append (a : BusAddr) (t u : List Event) : AllTo a (t ++ u) ↔ AllTo a t ∧ AllTo a u := by
  simp only [AllTo, List.mem_append, or_imp, forall_and]
@[simp] theorem allTo_hold (a : BusAddr) (h : Hold) (t : List Event) : AllTo a (.hold h :: t) ↔ AllTo a t := by
  simp [AllTo]
@[simp] theorem allTo_wrote (a b : BusAddr) (v : Byte) (t : List Event) :
    AllTo a (.wrote b v :: t) ↔ b = a ∧ AllTo a t := by
  simp [AllTo]
@[simp] theorem allTo_failed (a b : BusAddr) (v : Byte) (t : List Event) : ¬ AllTo a (.failed b v :: t) := by
  simp [AllTo]

/-- A trace cut short at one of its writes ends in that write, failed; what stands before it failed nowhere. -/
theorem cutAt_ends {a : BusAddr} {n : Nat} {t : List Event} (ha : AllTo a t) (hn : n < writeCount t) :
    ∃ before v, cutAt n t = before ++ [.failed a v] ∧ AllTo a before := by
  induction t generalizing n with
  | nil => simp at hn
  | cons e t ih =>
    cases e with
    | hold g =>
      obtain ⟨b, v, h, hb⟩ := ih (n := n) (by simpa using ha) (by simpa using hn)
      exact ⟨.hold g :: b, v, by cases n <;> simp [cutAt, h], by simpa using hb⟩
    | failed b v => exact absurd ha (allTo_failed a b v t)
    | wrote b v =>
      simp only [allTo_wrote, writeCount_wrote] at ha hn
      obtain ⟨rfl, ha⟩ := ha
      cases n with
      | zero => exact ⟨[], v, rfl, by simp⟩
      | succ n =>
        obtain ⟨w, v', h, hb⟩ := ih (n := n) ha (by omega)
        exact ⟨.wrote b v :: w, v', by simp [cutAt, h], by simpa using hb⟩

theorem allTo_notFailed {a : BusAddr} {t : List Event} (h : AllTo a t) : ∀ x ∈ t, x.isFailed = false := by
  intro x hx
  obtain ⟨v, rfl⟩ | ⟨g, rfl⟩ := h x hx <;> rfl

/-! ### How a played list ends -/

/-- The state after `n` answered writes and these events, everything else as it was. -/
def State.played (s : State) (n : Nat) (t : List Event) : State :=
  { s with bus := s.bus.skip n, trace := s.trace ++ t }

theorem played_step (s : State) (e : Event) (n : Nat) (t : List Event) :
    (s.busMoved.emit e).played n t = s.played (n + 1) (e :: t) := by
  simp [State.played, State.emit, State.busMoved]

theorem played_hold (s : State) (e : Event) (n : Nat) (t : List Event) :
    (s.emit e).played n t = s.played n (e :: t) := by
  simp [State.played, State.emit]

/-- Every write acknowledged: the events stand in the trace, the oracle has moved on, nothing else changed. -/
theorem play_done {a : BusAddr} {t : List Event} {s : State} (ha : AllTo a t) (hp : s.params.i2cAddr = a)
    (h : s.bus.okFor (writeCount t) = true) : play t s = .done (s.played (writeCount t) t) := by
  induction t generalizing s with
  | nil => simp [play, State.played]
  | cons e t ih =>
    cases e with
    | hold g =>
      simp only [allTo_hold, writeCount_hold] at ha h ⊢
      simp only [play, delay, andThen_done]
      rw [ih ha (by simpa using hp) (by simpa using h), played_hold]
    | wrote b v =>
      simp only [allTo_wrote, writeCount_wrote, okFor_succ, Bool.and_eq_true, decide_eq_true_eq] at ha h ⊢
      obtain ⟨rfl, ha⟩ := ha
      simp only [play, busPort_ok h.1, andThen_done, hp]
      rw [ih ha (by simpa using hp) (by simpa using h.2), played_step]
    | failed b v => exact absurd ha (allTo_failed a b v t)

/-- The first failed write ends the list there. -/
theorem play_aborted {a : BusAddr} {t : List Event} {s : State} {n : Nat} {e : BusErr} (ha : AllTo a t)
    (hp : s.params.i2cAddr = a) (hn : n < writeCount t) (h : s.bus.okFor n = true)
    (hf : (s.bus.skip n).answer = .fail e) : play t s = .aborted (s.played (n + 1) (cutAt n t)) e := by
  induction t generalizing s n with
  | nil => simp at hn
  | cons x t ih =>
    cases x with
    | hold g =>
      simp only [allTo_hold, writeCount_hold] at ha hn
      simp only [play, delay, andThen_done]
      rw [ih ha (by simpa using hp) hn (by simpa using h) (by simpa using hf), played_hold]
      cases n <;> rfl
    | wrote b v =>
      simp only [allTo_wrote, writeCount_wrote] at ha hn
      obtain ⟨rfl, ha⟩ := ha
      cases n with
      | zero =>
        simp only [skip_zero] at hf
        simp only [play, busPort_fail hf, andThen_aborted, hp]
        simp [State.played, State.emit, State.busMoved, cutAt]
      | succ n =>
        simp only [okFor_succ, Bool.and_eq_true, decide_eq_true_eq, skip_succ] at h hf
        simp only [play, busPort_ok h.1, andThen_done, hp]
        rw [ih (n := n) ha (by simpa using hp) (by omega) (by simpa using h.2) (by simpa using hf), played_step]
        rfl
    | failed b v => exact absurd ha (allTo_failed a b v t)

/-- A write that never gets an answer leaves the list stuck there. -/
theorem play_hung {a : BusAddr} {t : List Event} {s : State} {n : Nat} (ha : AllTo a t)
    (hp : s.params.i2cAddr = a) (hn : n < writeCount t) (h : s.bus.okFor n = true)
    (hf : (s.bus.skip n).answer = .silent) : play t s = .hung := by
  induction t generalizing s n with
  | nil => simp at hn
  | cons x t ih =>
    cases x with
    | hold g =>
      simp only [allTo_hold, writeCount_hold] at ha hn
      simp only [play, delay, andThen_done]
      exact ih ha (by simpa using hp) hn (by simpa using h) (by simpa using hf)
    | wrote b v =>
      simp only [allTo_wrote, writeCount_wrote] at ha hn
      obtain ⟨rfl, ha⟩ := ha
      cases n with
      | zero => simp [play, busPort_silent (by simpa using hf)]
      | succ n =>
        simp only [okFor_succ, Bool.and_eq_true, decide_eq_true_eq, skip_succ] at h hf
        simp only [play, busPort_ok h.1, andThen_done]
        exact ih (n := n) ha (by simpa using hp) (by omega) (by simpa using h.2) (by simpa using hf)
    | failed b v => exact absurd ha (allTo_failed a b v t)

/-- What the bus does to `k` writes: acknowledges them all, fails one, or leaves one without an answer. -/
theorem bus_cases (b : Bus) (k : Nat) :
    b.okFor k = true ∨ (∃ n e, n < k ∧ b.okFor n = true ∧ (b.skip n).answer = .fail e) ∨
      ∃ n, n < k ∧ b.okFor n = true ∧ (b.skip n).answer = .silent := by
  induction k generalizing b with
  | zero => exact .inl rfl
  | succ k ih =>
    cases hb : b.answer with
    | fail e => exact .inr (.inl ⟨0, e, by omega, rfl, hb⟩)
    | silent => exact .inr (.inr ⟨0, by omega, rfl, hb⟩)
    | ok =>
      obtain h | ⟨n, e, hn, ho, hf⟩ | ⟨n, hn, ho, hf⟩ := ih b.tail
      · exact .inl (by simp [hb, h])
      · exact .inr (.inl ⟨n + 1, e, by omega, by simp [hb, ho], by simpa using hf⟩)
      · exact .inr (.inr ⟨n + 1, by omega, by simp [hb, ho], by simpa using hf⟩)

/-! ### Each shared operation is a played list -/

theorem busPort_frame {v : Byte} {s t : State} (h : busPort v s = .done t) :
    t.params = s.params ∧ t.bl = s.bl ∧ t.cfg = s.cfg ∧ t.disp = s.disp ∧ t.seq = s.seq ∧ t.port = s.port ∧
      t.responses = s.responses := by
  cases hb : s.bus.answer with
  | ok => rw [busPort_ok hb] at h; cases h; simp
  | fail e => rw [busPort_fail hb] at h; cases h
  | silent => rw [busPort_silent hb] at h; cases h

/-- `XMIT` (R145). -/
theorem xmit_eq_play (v : Byte) (s : State) : xmit v s = play (strobeTrace s.params s.bl v) s := by
  simp only [xmit, strobeTrace, play, andThen_assoc, busw]
  refine andThen_congr fun t ht => ?_
  obtain ⟨hp, hbl, -⟩ := busPort_frame ht
  simp only [delay, andThen_done, emit_params, emit_bl, hp, hbl]
  exact andThen_congr fun u _ => rfl

theorem play_frame {t : List Event} {s u : State} (h : play t s = .done u) :
    u.params = s.params ∧ u.bl = s.bl ∧ u.cfg = s.cfg ∧ u.disp = s.disp ∧ u.seq = s.seq ∧ u.port = s.port ∧
      u.responses = s.responses := by
  induction t generalizing s with
  | nil => cases h; simp
  | cons e t ih =>
    cases e with
    | hold g => have := ih (s := s.emit (.hold g)) h; simpa using this
    | wrote a v =>
      simp only [play] at h
      cases hb : busPort v s with
      | done w => rw [hb] at h; have h1 := busPort_frame hb; have h2 := ih h; simp_all
      | aborted w e => rw [hb] at h; cases h
      | hung => rw [hb] at h; cases h
    | failed a v =>
      simp only [play] at h
      cases hb : busPort v s with
      | done w => rw [hb] at h; have h1 := busPort_frame hb; have h2 := ih h; simp_all
      | aborted w e => rw [hb] at h; cases h
      | hung => rw [hb] at h; cases h

/-- `WRITE` (R143). -/
theorem write_eq_play (b : Byte) (rs : Rs) (s : State) :
    write b rs s = play (byteTrace s.params s.cfg.ww s.bl b rs) s := by
  cases hw : s.cfg.ww with
  | w8 => simp only [write, hw, byteTrace, xmit_eq_play]
  | w4 =>
    simp only [write, hw, byteTrace, play_append, xmit_eq_play _ s]
    refine andThen_congr fun t ht => ?_
    obtain ⟨hp, hbl, -⟩ := play_frame ht
    rw [xmit_eq_play, hp, hbl]

/-- `NIB` (R101). -/
theorem nib_eq_play (n : Nibble) (s : State) : nib n s = play (nibTrace s.params s.bl n) s := by
  have h0 : placeNibble n ||| s.params.mode .cmd = placeNibble n := by simp [Params.mode]
  rw [nib, nibTrace, play_append, h0, xmit_eq_play]
  exact andThen_congr fun t _ => rfl

/-! ### Each micro-sequence is a played list -/

/-- The trace of one byte from a state. -/
def State.sends (s : State) (b : Byte) (rs : Rs) : List Event := byteTrace s.params s.cfg.ww s.bl b rs

/-- The command byte `FSET` sends (R91). -/
def fsetByte (s : State) : Byte := s.params.cmdByte .functionSet (s.params.fsPayload s.cfg)

/-- The command byte `APPLY` sends (R113). -/
def applyByte (s : State) : Byte := s.params.cmdByte .displayControl (s.params.dcPayload s.disp)

/-- The events of a statement performed in a state, when every write is acknowledged. -/
def stmtEvents (s : State) : Stmt → List Event
  | .fset => s.sends (fsetByte s) .cmd
  | .apply => s.sends (applyByte s) .cmd
  | .nib n => nibTrace s.params s.bl n
  | .write b rs => s.sends b rs
  | .xmit v => strobeTrace s.params s.bl v
  | .busw v => [.wrote s.params.i2cAddr (v ||| s.params.overlay s.bl)]
  | .busPort v => [.wrote s.params.i2cAddr v]
  | .delay p => [.hold p]
  | .setPower _ => []
  | .setCursor _ => []
  | .setBlink _ => []
  | .setBl _ => []

/-- The statement assigns nothing. -/
def Stmt.plain : Stmt → Bool
  | .setPower _ => false
  | .setCursor _ => false
  | .setBlink _ => false
  | .setBl _ => false
  | _ => true

/-- A plain statement plays its events. -/
theorem runStmt_eq_play {x : Stmt} (hx : x.plain = true) (s : State) : runStmt x s = play (stmtEvents s x) s := by
  cases x with
  | setPower on => cases hx
  | setCursor on => cases hx
  | setBlink on => cases hx
  | setBl on => cases hx
  | fset => exact write_eq_play _ _ s
  | apply => exact write_eq_play _ _ s
  | nib n => exact nib_eq_play n s
  | write b rs => exact write_eq_play b rs s
  | xmit v => exact xmit_eq_play v s
  | busw v =>
    simp only [runStmt, busw, stmtEvents, play]
    cases busPort (v ||| s.params.overlay s.bl) s <;> rfl
  | busPort v =>
    simp only [runStmt, stmtEvents, play]
    cases busPort v s <;> rfl
  | delay p => rfl

/-- What a statement sends depends only on what a played list keeps. -/
theorem stmtEvents_played {t : List Event} {s u : State} (h : play t s = .done u) : stmtEvents u = stmtEvents s := by
  obtain ⟨hp, hb, hc, hd, -⟩ := play_frame h
  funext x
  cases x <;> simp only [stmtEvents, State.sends, fsetByte, applyByte, hp, hb, hc, hd]

/-- Plain statements in textual order play their events in that order. -/
theorem runStmts_eq_play {xs : List Stmt} (hx : ∀ x ∈ xs, x.plain = true) (s : State) :
    runStmts xs s = play (xs.flatMap (stmtEvents s)) s := by
  induction xs generalizing s with
  | nil => rfl
  | cons x xs ih =>
    rw [runStmts, runStmt_eq_play (hx x (by simp)), List.flatMap_cons, play_append]
    refine andThen_congr fun u hu => ?_
    rw [ih (fun y hy => hx y (by simp [hy])), stmtEvents_played hu]

/-! ### Each instruction is a played list -/

/-- The assignments of an instruction, made before its first bus write (60_exceptions.md R176). -/
def State.assign (s : State) (i : Instr) : State :=
  { s with disp := dispAfter i s.disp, bl := blAfter i s.bl }

/-- The plain statements of an instruction's micro-sequence. -/
def sends (p : Params) (i : Instr) : List Stmt := (bodyOf p i).filter Stmt.plain

/-- The events of an instruction performed from the state its assignments leave. -/
def instrTrace (i : Instr) (s : State) : List Event := (sends s.params i).flatMap (stmtEvents s)

theorem runStmts_body (i : Instr) (s : State) :
    runStmts (bodyOf s.params i) s = play (instrTrace i (s.assign i)) (s.assign i) := by
  have key : ∀ u : State, play (instrTrace i u) u = runStmts (sends u.params i) u := fun u =>
    (runStmts_eq_play (fun x hx => (List.mem_filter.mp hx).2) u).symm
  rw [key]
  have filt : ∀ cs : List Byte, (cs.map (Stmt.write · .data)).filter Stmt.plain = cs.map (Stmt.write · .data) := by
    intro cs
    exact List.filter_eq_self.mpr fun x hx => by
      obtain ⟨c, -, rfl⟩ := List.mem_map.mp hx
      rfl
  cases i with
  | text row col cs =>
    simp only [sends, bodyOf, bodyText, State.assign, dispAfter, blAfter, List.filter_cons, filt]
    rfl
  | _ => rfl

/-- What an accepted instruction does, in one line: its assignments, then its events played against the bus, then the return. -/
theorem exec_eq_play {i : Instr} {s : State} (h : Ready i s) :
    exec i s = complete (play (instrTrace i (s.assign i)) (s.assign i)) := by
  have hr : ∀ body, request body s = complete (runStmts body s) := fun body => by simp [request, h.1]
  rw [← runStmts_body]
  cases i with
  | text row col cs =>
    have : textFits s.params.textMax cs = true := h.2
    simp only [exec, execText, this, if_true, hr, bodyOf]
  | _ => exact hr _

/-- A busy encoder, or a text that does not fit, is refused; nothing else is. -/
theorem exec_not_ready {i : Instr} {s : State} (h : ¬ Ready i s) : ∃ r, exec i s = .refused r := by
  cases hs : s.seq with
  | running rest =>
    have hr : ∀ body, request body s = .refused .busy := fun body => by simp [request, hs]
    cases i with
    | text row col cs =>
      simp only [exec, execText, hr]
      split <;> exact ⟨_, rfl⟩
    | _ => exact ⟨_, hr _⟩
  | idle =>
    have hw : i.wf s.params.textMax ≠ true := fun hw => h ⟨hs, hw⟩
    cases i with
    | text row col cs =>
      have : textFits s.params.textMax cs = false := by simpa [Instr.wf] using hw
      exact ⟨.textTooLong, by simp [exec, execText, this]⟩
    | _ => exact absurd rfl hw

/-! ### The addresses -/

theorem allTo_strobe (p : Params) (bl : Bool) (v : Byte) : AllTo p.i2cAddr (strobeTrace p bl v) := by
  simp [strobeTrace]

theorem allTo_byte (p : Params) (ww : WordWidth) (bl : Bool) (b : Byte) (rs : Rs) :
    AllTo p.i2cAddr (byteTrace p ww bl b rs) := by
  cases ww <;> simp [byteTrace, allTo_strobe]

theorem allTo_stmt (s : State) (x : Stmt) : AllTo s.params.i2cAddr (stmtEvents s x) := by
  cases x <;> simp [stmtEvents, State.sends, allTo_byte, allTo_strobe, nibTrace]

theorem allTo_instr (i : Instr) (s : State) : AllTo s.params.i2cAddr (instrTrace i s) := by
  intro e he
  obtain ⟨x, -, hx⟩ := List.mem_flatMap.mp he
  exact allTo_stmt s x e hx

/-! ### The three endings of an instruction -/

@[simp] theorem assign_params (s : State) (i : Instr) : (s.assign i).params = s.params := rfl
@[simp] theorem assign_bus (s : State) (i : Instr) : (s.assign i).bus = s.bus := rfl
@[simp] theorem assign_cfg (s : State) (i : Instr) : (s.assign i).cfg = s.cfg := rfl
@[simp] theorem assign_seq (s : State) (i : Instr) : (s.assign i).seq = s.seq := rfl
@[simp] theorem assign_port (s : State) (i : Instr) : (s.assign i).port = s.port := rfl
@[simp] theorem assign_trace (s : State) (i : Instr) : (s.assign i).trace = s.trace := rfl
@[simp] theorem assign_responses (s : State) (i : Instr) : (s.assign i).responses = s.responses := rfl
@[simp] theorem assign_disp (s : State) (i : Instr) : (s.assign i).disp = dispAfter i s.disp := rfl
@[simp] theorem assign_bl (s : State) (i : Instr) : (s.assign i).bl = blAfter i s.bl := rfl

theorem returnOk_played {s : State} (hs : s.seq = .idle) (t : List Event) :
    returnOk (s.played (writeCount t) t) = s.afterOk t := by
  simp [returnOk, State.played, State.afterOk, hs]

theorem takeBusFailure_played {s : State} (hs : s.seq = .idle) (n : Nat) (e : BusErr) (t : List Event) :
    takeBusFailure e (s.played (n + 1) (cutAt n t)) = s.afterFail n e t := by
  simp [takeBusFailure, State.played, State.afterFail, hs]

theorem exec_ok {i : Instr} {s : State} (h : Ready i s)
    (hb : Acknowledges s.bus (instrTrace i (s.assign i))) :
    exec i s = .next ((s.assign i).afterOk (instrTrace i (s.assign i))) := by
  rw [exec_eq_play h, play_done (allTo_instr i _) rfl hb, complete_done,
    returnOk_played (s := s.assign i) h.1]

theorem exec_fail {i : Instr} {s : State} (h : Ready i s) {n : Nat} {e : BusErr}
    (hb : FailsAt s.bus n e (instrTrace i (s.assign i))) :
    exec i s = .next ((s.assign i).afterFail n e (instrTrace i (s.assign i))) := by
  rw [exec_eq_play h, play_aborted (allTo_instr i _) rfl hb.1 hb.2.1 hb.2.2, complete_aborted,
    takeBusFailure_played (s := s.assign i) h.1]

theorem exec_hung {i : Instr} {s : State} (h : Ready i s) {n : Nat}
    (hn : n < writeCount (instrTrace i (s.assign i))) (ho : s.bus.okFor n = true)
    (hb : (s.bus.skip n).answer = .silent) : exec i s = .fault .busNeverAnswers := by
  rw [exec_eq_play h, play_hung (allTo_instr i _) rfl hn ho hb, complete_hung]

/-- Whatever the bus answers, an accepted instruction is its events performed from the state its assignments leave. -/
theorem performs_instr {i : Instr} {s : State} (h : Ready i s) :
    Performs i s (s.assign i) (instrTrace i (s.assign i)) :=
  ⟨exec_ok h, fun _ _ => exec_fail h⟩

/-- If an instruction answers a next state, it was accepted, and it either ran to its end or was cut at a failed write. -/
theorem exec_next {i : Instr} {s t : State} (h : exec i s = .next t) :
    Ready i s ∧
      ((Acknowledges s.bus (instrTrace i (s.assign i)) ∧ t = (s.assign i).afterOk (instrTrace i (s.assign i))) ∨
        ∃ n e, FailsAt s.bus n e (instrTrace i (s.assign i)) ∧
          t = (s.assign i).afterFail n e (instrTrace i (s.assign i))) := by
  by_cases hr : Ready i s
  · refine ⟨hr, ?_⟩
    obtain hb | ⟨n, e, hb⟩ | ⟨n, hn, ho, hf⟩ := bus_cases s.bus (writeCount (instrTrace i (s.assign i)))
    · rw [exec_ok hr hb] at h; cases h; exact .inl ⟨hb, rfl⟩
    · rw [exec_fail hr hb] at h; cases h; exact .inr ⟨n, e, hb, rfl⟩
    · rw [exec_eq_play hr, play_hung (allTo_instr i _) rfl hn ho hf] at h; cases h
  · obtain ⟨r, hr'⟩ := exec_not_ready hr
    rw [hr'] at h; cases h

end Sys2Proof.Machine
end

