-- ==== Sys2Proof/Laws/Instr.lean ====
section
/-! SUPPORT. Laws/Instr.lean: the events of each instruction, written out; the lengths and bytes of the pipeline's traces; the
words of the request format; and what the checks of WellFormed.lean give. -/

namespace Sys2Proof.Machine

/-! ### The events of each instruction -/

variable (s : State)

@[simp] theorem instrTrace_init : instrTrace .init s =
    nibTrace s.params s.bl 0x3 ++ (nibTrace s.params s.bl 0x3 ++ (nibTrace s.params s.bl 0x3 ++
      (nibTrace s.params s.bl 0x2 ++ (s.sends (fsetByte s) .cmd ++ (s.sends (applyByte s) .cmd ++
        (s.sends s.params.opbClear .cmd ++
          (s.sends (s.params.cmdByte .entryModeSet (s.params.emPayload .left .noShift)) .cmd ++ [.hold .tSettle]))))))) :=
  rfl

theorem flatMap_one (x : Stmt) : [x].flatMap (stmtEvents s) = stmtEvents s x := by simp

@[simp] theorem instrTrace_clear : instrTrace .clear s = s.sends s.params.opbClear .cmd := flatMap_one s _
@[simp] theorem instrTrace_entry (dir : Dir) (sh : Shift) : instrTrace (.entry dir sh) s =
    s.sends (s.params.cmdByte .entryModeSet (s.params.emPayload dir sh)) .cmd := flatMap_one s _
@[simp] theorem instrTrace_power (on : Bool) : instrTrace (.power on) s = s.sends (applyByte s) .cmd := flatMap_one s _
@[simp] theorem instrTrace_cursor (on : Bool) : instrTrace (.cursor on) s = s.sends (applyByte s) .cmd := flatMap_one s _
@[simp] theorem instrTrace_blink (on : Bool) : instrTrace (.blink on) s = s.sends (applyByte s) .cmd := flatMap_one s _
@[simp] theorem instrTrace_backlight (on : Bool) : instrTrace (.backlight on) s =
    [.wrote s.params.i2cAddr (s.params.overlay s.bl)] := by
  have : (0#8) ||| s.params.overlay s.bl = s.params.overlay s.bl := by simp
  exact (flatMap_one s (.busw 0x00)).trans (by simp [stmtEvents])
@[simp] theorem instrTrace_cmd (k : Opcode) (data : Byte) : instrTrace (.cmd k data) s =
    s.sends (s.params.cmdByte k data) .cmd := flatMap_one s _
@[simp] theorem instrTrace_write (b : Byte) (rs : Rs) : instrTrace (.write b rs) s = s.sends b rs := flatMap_one s _
@[simp] theorem instrTrace_clearDisplay : instrTrace .clearDisplay s = s.sends s.params.opbClear .cmd := flatMap_one s _
@[simp] theorem instrTrace_returnHome : instrTrace .returnHome s = s.sends s.params.opbHome .cmd := flatMap_one s _
@[simp] theorem instrTrace_entryModeSet (d sh : Bool) : instrTrace (.entryModeSet d sh) s =
    s.sends (s.params.cmdByte .entryModeSet (s.params.emPayload (Dir.ofBit d) (Shift.ofBit sh))) .cmd := flatMap_one s _
@[simp] theorem instrTrace_displayControl (pw c b : Bool) : instrTrace (.displayControl pw c b) s =
    s.sends (s.params.cmdByte .displayControl (s.params.dcPayload ⟨pw, c, b⟩)) .cmd := flatMap_one s _
@[simp] theorem instrTrace_cursorShift (sc rl : Bool) (x : BitVec 2) : instrTrace (.cursorShift sc rl x) s =
    s.sends (s.params.cmdByte .cursorShift (csPayload sc rl x)) .cmd := flatMap_one s _
@[simp] theorem instrTrace_functionSet (w l m : Bool) (x : BitVec 2) : instrTrace (.functionSet w l m x) s =
    s.sends (s.params.cmdByte .functionSet (s.params.fsPayload (announced w l m) ||| x.setWidth 8)) .cmd := flatMap_one s _
@[simp] theorem instrTrace_setCgramAddr (a : BitVec 6) : instrTrace (.setCgramAddr a) s =
    s.sends (s.params.cmdByte .setCgramAddr (a.setWidth 8)) .cmd := flatMap_one s _
@[simp] theorem instrTrace_setDdramAddr (a : BitVec 7) : instrTrace (.setDdramAddr a) s =
    s.sends (s.params.cmdByte .setDdramAddr (a.setWidth 8)) .cmd := flatMap_one s _

theorem filter_chars (chars : List Byte) :
    (chars.map (Stmt.write · .data)).filter Stmt.plain = chars.map (Stmt.write · .data) :=
  List.filter_eq_self.mpr fun x hx => by
    obtain ⟨c, -, rfl⟩ := List.mem_map.mp hx
    rfl

@[simp] theorem instrTrace_text (row col : Byte) (chars : List Byte) : instrTrace (.text row col chars) s =
    s.sends (s.params.ddramCmd row col) .cmd ++ chars.flatMap (s.sends · .data) := by
  have h : sends s.params (.text row col chars) =
      .write (s.params.ddramCmd row col) .cmd :: (chars.map (Stmt.write · .data)).filter Stmt.plain := rfl
  rw [instrTrace, h, filter_chars, List.flatMap_cons, List.flatMap_map]
  rfl

/-! ### Lengths and holds of the pipeline's traces -/

@[simp] theorem writeCount_strobe (p : Params) (bl : Bool) (v : Byte) : writeCount (strobeTrace p bl v) = 2 := by
  simp [strobeTrace]

@[simp] theorem writeCount_nib (p : Params) (bl : Bool) (n : Nibble) : writeCount (nibTrace p bl n) = 2 := by
  simp [nibTrace]

@[simp] theorem writeCount_byte (p : Params) (ww : WordWidth) (bl : Bool) (b : Byte) (rs : Rs) :
    writeCount (byteTrace p ww bl b rs) = 2 * strobesPerByte ww := by
  cases ww <;> simp [byteTrace, strobesPerByte]

@[simp] theorem writeCount_sends (b : Byte) (rs : Rs) :
    writeCount (s.sends b rs) = 2 * strobesPerByte s.cfg.ww := writeCount_byte _ _ _ _ _

/-! ### Bytes of a trace -/

@[simp] theorem busBytes_nil : busBytes [] = [] := rfl
@[simp] theorem busBytes_wrote (a : BusAddr) (v : Byte) (t : List Event) :
    busBytes (.wrote a v :: t) = v :: busBytes t := rfl
@[simp] theorem busBytes_failed (a : BusAddr) (v : Byte) (t : List Event) :
    busBytes (.failed a v :: t) = v :: busBytes t := rfl
@[simp] theorem busBytes_hold (h : Hold) (t : List Event) : busBytes (.hold h :: t) = busBytes t := rfl
@[simp] theorem busBytes_append (t u : List Event) : busBytes (t ++ u) = busBytes t ++ busBytes u := by
  simp [busBytes]

/-- A trace cut short carries no byte the whole trace does not carry. -/
theorem busBytes_cutAt {n : Nat} {t : List Event} {v : Byte} (h : v ∈ busBytes (cutAt n t)) : v ∈ busBytes t := by
  induction t generalizing n with
  | nil => exact h
  | cons e t ih =>
    cases e with
    | hold g => exact ih (n := n) (by cases n <;> exact h)
    | failed a w =>
      have h' : v ∈ w :: busBytes (cutAt n t) := by cases n <;> exact h
      simp only [List.mem_cons] at h'
      simp only [busBytes_failed, List.mem_cons]
      exact h'.imp_right ih
    | wrote a w =>
      cases n with
      | zero => simp only [cutAt, busBytes_failed, busBytes_nil, List.mem_singleton] at h; simp [h]
      | succ n =>
        simp only [cutAt, busBytes_wrote, List.mem_cons] at h ⊢
        exact h.imp_right ih

/-! ### Holds and durations of a trace -/

@[simp] theorem holdCount_nil (p : Hold) : holdCount p [] = 0 := rfl
@[simp] theorem holdCount_append (p : Hold) (t u : List Event) :
    holdCount p (t ++ u) = holdCount p t + holdCount p u := by simp [holdCount]
@[simp] theorem holdCount_wrote (p : Hold) (a : BusAddr) (v : Byte) (t : List Event) :
    holdCount p (.wrote a v :: t) = holdCount p t := by simp [holdCount, Event.isHold]
@[simp] theorem holdCount_hold (p q : Hold) (t : List Event) :
    holdCount p (.hold q :: t) = holdCount p t + if q = p then 1 else 0 := by
  simp [holdCount, List.countP_cons, Event.isHold]

@[simp] theorem minDuration_nil (p : Params) : minDuration p [] = 0 := rfl
@[simp] theorem minDuration_append (p : Params) (t u : List Event) :
    minDuration p (t ++ u) = minDuration p t + minDuration p u := by simp [minDuration]
@[simp] theorem minDuration_wrote (p : Params) (a : BusAddr) (v : Byte) (t : List Event) :
    minDuration p (.wrote a v :: t) = minDuration p t := by simp [minDuration, Event.duration]
@[simp] theorem minDuration_failed (p : Params) (a : BusAddr) (v : Byte) (t : List Event) :
    minDuration p (.failed a v :: t) = minDuration p t := by simp [minDuration, Event.duration]
@[simp] theorem minDuration_hold (p : Params) (h : Hold) (t : List Event) :
    minDuration p (.hold h :: t) = p.duration h + minDuration p t := by simp [minDuration, Event.duration]

/-! ### Request words -/

theorem req_fields (op : BitVec 4) (a b : Byte) :
    reqOp (reqWord op a b) = op ∧ reqA (reqWord op a b) = a ∧ reqB (reqWord op a b) = b := by
  refine ⟨?_, ?_, ?_⟩ <;> refine BitVec.eq_of_getLsbD_eq fun i hi => ?_
  · simp only [reqOp, reqWord]; interval_cases i <;> simp
  · simp only [reqA, reqWord]; interval_cases i <;> simp
  · simp only [reqB, reqWord]; interval_cases i <;> simp

@[simp] theorem reqOp_reqWord (op : BitVec 4) (a b : Byte) : reqOp (reqWord op a b) = op := (req_fields op a b).1
@[simp] theorem reqA_reqWord (op : BitVec 4) (a b : Byte) : reqA (reqWord op a b) = a := (req_fields op a b).2.1
@[simp] theorem reqB_reqWord (op : BitVec 4) (a b : Byte) : reqB (reqWord op a b) = b := (req_fields op a b).2.2

/-- A word is its three fields. -/
theorem reqWord_fields (w : ReqWord) : reqWord (reqOp w) (reqA w) (reqB w) = w := by
  refine BitVec.eq_of_getLsbD_eq fun i hi => ?_
  simp only [reqWord, reqOp, reqA, reqB]
  interval_cases i <;> simp

/-! ### What R8 gives -/

/-- The parameters' overlay bits are one-bit masks within `0x0F`, no two alike. -/
theorem wf_overlays {p : Params} (h : p.wf = true) :
    (∀ b ∈ p.overlayBits, b = 0x01 ∨ b = 0x02 ∨ b = 0x04 ∨ b = 0x08) ∧ p.overlayBits.Nodup := by
  simp only [Params.wf, Params.overlaysDistinct, Params.overlaysLow, Bool.and_eq_true, List.all_eq_true,
    decide_eq_true_eq] at h
  obtain ⟨⟨⟨h1, h2⟩, h3⟩, -⟩ := h
  refine ⟨fun b hb => ?_, h2⟩
  have hone : ∀ c : Byte, oneBit c = true → (c &&& 0xF0 == 0) = true → c = 0x01 ∨ c = 0x02 ∨ c = 0x04 ∨ c = 0x08 := by
    decide
  exact hone b (h1 b hb) (h3 b hb)

/-- R8 for two masks: no bit of one is a bit of the other. -/
theorem masks_disjoint {a b : Byte} (ha : a = 0x01 ∨ a = 0x02 ∨ a = 0x04 ∨ a = 0x08)
    (hb : b = 0x01 ∨ b = 0x02 ∨ b = 0x04 ∨ b = 0x08) (h : a ≠ b) : a &&& b = 0#8 := by
  rcases ha with rfl | rfl | rfl | rfl <;> rcases hb with rfl | rfl | rfl | rfl <;> first | rfl | exact absurd rfl h

/-- R8 (a): no overlay bit is a bit of another. -/
theorem wf_disjoint {p : Params} (h : p.wf = true) :
    (p.rsBit &&& p.rwBit = 0#8 ∧ p.rsBit &&& p.enBit = 0#8 ∧ p.rsBit &&& p.blBit = 0#8) ∧
      (p.rwBit &&& p.enBit = 0#8 ∧ p.rwBit &&& p.blBit = 0#8) ∧ p.enBit &&& p.blBit = 0#8 := by
  obtain ⟨h1, h2⟩ := wf_overlays h
  simp only [Params.overlayBits, List.nodup_cons, List.mem_cons, List.not_mem_nil, or_false, not_or,
    forall_eq_or_imp, forall_eq] at h1 h2
  obtain ⟨hrs, hrw, hen, hbl⟩ := h1
  obtain ⟨⟨n1, n2, n3⟩, ⟨n4, n5⟩, n6, -⟩ := h2
  exact ⟨⟨masks_disjoint hrs hrw n1, masks_disjoint hrs hen n2, masks_disjoint hrs hbl n3⟩,
    ⟨masks_disjoint hrw hen n4, masks_disjoint hrw hbl n5⟩, masks_disjoint hen hbl n6⟩

/-- R8 (b): no overlay bit touches bits 7 to 4. -/
theorem wf_low {p : Params} (h : p.wf = true) : ∀ b ∈ p.overlayBits, b &&& 0xF0#8 = 0#8 := by
  intro b hb
  rcases (wf_overlays h).1 b hb with rfl | rfl | rfl | rfl <;> rfl

/-- The low nibble a transmission unit carries in 4-bit word width is the mode alone. -/
theorem nibble_low (b : Byte) : hiNibble b &&& 0x0F#8 = 0#8 ∧ loNibble b &&& 0x0F#8 = 0#8 := by
  revert b; decide

theorem placeNibble_low (n : Nibble) : placeNibble n &&& 0x0F#8 = 0#8 := by
  revert n; decide

/-! ### The default values (00_scope.md R7) -/

theorem standard_bases {p : Params} (h : p.standardEncoding) :
    p.opbClear = 0x01#8 ∧ p.opbHome = 0x02#8 ∧ p.opbEntry = 0x04#8 ∧ p.opbDispctl = 0x08#8 ∧ p.opbShift = 0x10#8 ∧
      p.opbFset = 0x20#8 ∧ p.opbCgram = 0x40#8 ∧ p.opbDdram = 0x80#8 := by
  rw [h]; exact ⟨rfl, rfl, rfl, rfl, rfl, rfl, rfl, rfl⟩

theorem standard_fragments {p : Params} (h : p.standardEncoding) :
    p.fsW4 = 0x00#8 ∧ p.fsW8 = 0x10#8 ∧ p.fsL1 = 0x00#8 ∧ p.fsL2 = 0x08#8 ∧ p.fsM5x8 = 0x00#8 ∧ p.fsM5x10 = 0x04#8 ∧
      p.emLeft = 0x02#8 ∧ p.emRight = 0x00#8 ∧ p.shOff = 0x00#8 ∧ p.shOn = 0x01#8 ∧ p.dcPower = 0x04#8 ∧
      p.dcCursor = 0x02#8 ∧ p.dcBlink = 0x01#8 := by
  rw [h]; exact ⟨rfl, rfl, rfl, rfl, rfl, rfl, rfl, rfl, rfl, rfl, rfl, rfl, rfl⟩

theorem standard_overlays {p : Params} (h : p.standardEncoding) :
    p.rsBit = 0x01#8 ∧ p.rwBit = 0x02#8 ∧ p.enBit = 0x04#8 ∧ p.blBit = 0x08#8 := by
  rw [h]; exact ⟨rfl, rfl, rfl, rfl⟩

theorem standard_rows {p : Params} (h : p.standardEncoding) :
    p.row1Base = 0x00#8 ∧ p.row2Base = 0x40#8 ∧ p.row3Base = 0x14#8 ∧ p.row4Base = 0x54#8 := by
  rw [h]; exact ⟨rfl, rfl, rfl, rfl⟩

end Sys2Proof.Machine
end

