-- ==== Sys2Proof/Laws/Bytes.lean ====
section
/-! SUPPORT. Laws/Bytes.lean: the bytes a request puts on the bus: what their positions hold under R8, in 4-bit word width, in
`NIB` and in `BACKLIGHT`. -/

namespace Sys2Proof.Machine

/-- What an instruction that answers a next state added to the trace: bytes of its events, and no others. -/
theorem exec_trace {i : Instr} {s t : State} (h : exec i s = .next t) :
    ∃ evs, t.trace = s.trace ++ evs ∧ ∀ v ∈ busBytes evs, v ∈ busBytes (instrTrace i (s.assign i)) := by
  obtain ⟨-, ⟨-, rfl⟩ | ⟨n, e, -, rfl⟩⟩ := exec_next h
  · exact ⟨_, rfl, fun _ h => h⟩
  · exact ⟨_, rfl, fun _ h => busBytes_cutAt h⟩

/-- A bus byte in which data, register-select, enable and backlight each have their own bits (44_pipeline.md R148 to R150). -/
def Placed (p : Params) (bl : Bool) (v : Byte) : Prop :=
  ∃ d m e : Byte, d &&& 0x0F#8 = 0#8 ∧ (m = 0#8 ∨ m = p.rsBit) ∧ (e = 0#8 ∨ e = p.enBit) ∧
    v = d ||| m ||| e ||| p.overlay bl

/-- A nibble in bits 7 to 4 has no bit in common with an overlay. -/
theorem low_and {p : Params} (hw : p.wf = true) {d z : Byte} (hd : d &&& 0x0F#8 = 0#8) (hz : z ∈ p.overlayBits) :
    d &&& z = 0#8 := by
  have h := (wf_overlays hw).1 z hz
  clear hz
  rcases h with rfl | rfl | rfl | rfl <;> revert d <;> decide

/-- Clearing bits that are not set changes nothing. -/
theorem and_not_of_and_eq_zero {a b : Byte} (h : a &&& b = 0#8) : a &&& ~~~b = a := by
  refine BitVec.eq_of_getLsbD_eq fun i hi => ?_
  have := congrArg (·.getLsbD i) h
  simp [hi] at this ⊢
  cases hb : b[i] <;> simp_all

theorem placed_strobe {p : Params} (hw : p.wf = true) (bl : Bool) {d m : Byte} (hd : d &&& 0x0F#8 = 0#8)
    (hm : m = 0#8 ∨ m = p.rsBit) : ∀ v ∈ busBytes (strobeTrace p bl (d ||| m)), Placed p bl v := by
  intro v hv
  simp only [strobeTrace, busBytes_wrote, busBytes_hold, busBytes_nil, List.mem_cons, List.not_mem_nil, or_false] at hv
  obtain rfl | rfl := hv
  · exact ⟨d, m, _, hd, hm, .inr rfl, rfl⟩
  · refine ⟨d, m, 0, hd, hm, .inl rfl, ?_⟩
    have hme : m &&& p.enBit = 0#8 := by obtain rfl | rfl := hm <;> simp [(wf_disjoint hw).1.2.1]
    have hde := low_and hw hd (z := p.enBit) (by simp [Params.overlayBits])
    rw [and_not_of_and_eq_zero (by rw [BitVec.and_or_distrib_right, hde, hme]; rfl)]
    simp

theorem placed_byte {p : Params} (hw : p.wf = true) (bl : Bool) (b : Byte) (rs : Rs) :
    ∀ v ∈ busBytes (byteTrace p .w4 bl b rs), Placed p bl v := by
  intro v hv
  simp only [byteTrace, busBytes_append, List.mem_append] at hv
  have hm : p.mode rs = 0#8 ∨ p.mode rs = p.rsBit := by cases rs <;> simp [Params.mode]
  obtain hv | hv := hv
  · exact placed_strobe hw bl (nibble_low b).1 hm v hv
  · exact placed_strobe hw bl (nibble_low b).2 hm v hv

theorem placed_nib {p : Params} (hw : p.wf = true) (bl : Bool) (n : Nibble) :
    ∀ v ∈ busBytes (nibTrace p bl n), Placed p bl v := by
  intro v hv
  refine placed_strobe hw bl (m := 0) (placeNibble_low n) (.inl rfl) v ?_
  simpa [nibTrace] using hv

theorem placed_overlay (p : Params) (bl : Bool) : Placed p bl (p.overlay bl) :=
  ⟨0, 0, 0, by simp, .inl rfl, .inl rfl, by simp⟩

/-- The statements an instruction sends with: never a bare strobe or bus write, but for `BACKLIGHT`. -/
theorem sends_mem {p : Params} {i : Instr} {x : Stmt} (hx : x ∈ sends p i) :
    (∃ n, x = .nib n) ∨ x = .fset ∨ x = .apply ∨ (∃ b rs, x = .write b rs) ∨ (∃ h, x = .delay h) ∨
      ((∃ on, i = .backlight on) ∧ x = .busw 0x00) := by
  simp only [sends, List.mem_filter] at hx
  obtain ⟨hx, hp⟩ := hx
  cases i with
  | text row col cs =>
    simp only [bodyOf, bodyText, List.mem_cons, List.mem_map] at hx
    obtain rfl | ⟨a, -, rfl⟩ := hx <;> simp
  | backlight on =>
    simp only [bodyOf, bodyBacklight, List.mem_cons, List.not_mem_nil, or_false] at hx
    obtain rfl | rfl := hx
    · cases hp
    · simp
  | power on =>
    simp only [bodyOf, bodyPower, List.mem_cons, List.not_mem_nil, or_false] at hx
    obtain rfl | rfl := hx
    · cases hp
    · simp
  | cursor on =>
    simp only [bodyOf, bodyCursor, List.mem_cons, List.not_mem_nil, or_false] at hx
    obtain rfl | rfl := hx
    · cases hp
    · simp
  | blink on =>
    simp only [bodyOf, bodyBlink, List.mem_cons, List.not_mem_nil, or_false] at hx
    obtain rfl | rfl := hx
    · cases hp
    · simp
  | init =>
    simp only [bodyOf, bodyInit, List.mem_cons, List.not_mem_nil, or_false] at hx
    rcases hx with rfl | rfl | rfl | rfl | rfl | rfl | rfl | rfl | rfl <;> simp
  | _ =>
    rw [List.mem_singleton.mp hx]
    simp

/-- In 4-bit word width, and in `BACKLIGHT` in either, every byte of an instruction is placed. -/
theorem placed_instr {i : Instr} {s : State} (hw : s.params.wf = true) (hww : s.cfg.ww = .w4 ∨ ∃ on, i = .backlight on) :
    ∀ v ∈ busBytes (instrTrace i s), Placed s.params s.bl v := by
  by_cases hb : ∃ on, i = .backlight on
  · obtain ⟨on, rfl⟩ := hb
    intro v hv
    simp only [instrTrace_backlight, busBytes_wrote, busBytes_nil, List.mem_singleton] at hv
    exact hv ▸ placed_overlay _ _
  · have hww := hww.resolve_right hb
    intro v hv
    simp only [instrTrace, busBytes, List.filterMap_flatMap, List.mem_flatMap] at hv
    obtain ⟨x, hx, hv⟩ := hv
    change v ∈ busBytes (stmtEvents s x) at hv
    obtain ⟨n, rfl⟩ | rfl | rfl | ⟨b, rs, rfl⟩ | ⟨h, rfl⟩ | ⟨h, -⟩ := sends_mem hx
    · exact placed_nib hw _ n v hv
    · simp only [stmtEvents, State.sends, hww] at hv; exact placed_byte hw _ _ _ v hv
    · simp only [stmtEvents, State.sends, hww] at hv; exact placed_byte hw _ _ _ v hv
    · simp only [stmtEvents, State.sends, hww] at hv; exact placed_byte hw _ _ _ v hv
    · simp [stmtEvents] at hv
    · exact absurd h hb

/-- The read-write position of a placed byte is 0. -/
theorem placed_rw {p : Params} {bl : Bool} {v : Byte} (hw : p.wf = true) (h : Placed p bl v) : v &&& p.rwBit = 0#8 := by
  obtain ⟨d, m, e, hd, hm, he, rfl⟩ := h
  obtain ⟨⟨d1, -, -⟩, ⟨d4, d5⟩, -⟩ := wf_disjoint hw
  have h1 := low_and hw hd (z := p.rwBit) (by simp [Params.overlayBits])
  have h2 : m &&& p.rwBit = 0#8 := by obtain rfl | rfl := hm <;> simp [d1]
  have h3 : e &&& p.rwBit = 0#8 := by
    obtain rfl | rfl := he
    · simp
    · rw [BitVec.and_comm]; exact d4
  have h4 : p.overlay bl &&& p.rwBit = 0#8 := by
    cases bl
    · simp [Params.overlay]
    · rw [BitVec.and_comm]; exact d5
  simp [BitVec.and_or_distrib_right, h1, h2, h3, h4]

/-- The backlight position of a placed byte is the backlight state. -/
theorem placed_bl {p : Params} {bl : Bool} {v : Byte} (hw : p.wf = true) (h : Placed p bl v) :
    v &&& p.blBit = if bl then p.blBit else 0#8 := by
  obtain ⟨d, m, e, hd, hm, he, rfl⟩ := h
  obtain ⟨⟨-, -, d3⟩, -, d6⟩ := wf_disjoint hw
  have h1 := low_and hw hd (z := p.blBit) (by simp [Params.overlayBits])
  have h2 : m &&& p.blBit = 0#8 := by obtain rfl | rfl := hm <;> simp [d3]
  have h3 : e &&& p.blBit = 0#8 := by obtain rfl | rfl := he <;> simp [d6]
  cases bl <;> simp [BitVec.and_or_distrib_right, h1, h2, h3, Params.overlay]

end Sys2Proof.Machine
end

