-- ==== Sys2Proof/Laws/Frame.lean ====
section
/-! SUPPORT. Laws/Frame.lean: what any statement list, started anywhere, leaves as it was; what it can do to the trace; and that
`SEQ` does not matter to it. -/

namespace Sys2Proof.Machine

/-- `t` is `s` with bus writes to `I2C_ADDR` and holds added to the trace; `DISP`, `BL` and the bus oracle may differ. -/
structure Extends (s t : State) : Prop where
  cfg : t.cfg = s.cfg
  params : t.params = s.params
  seq : t.seq = s.seq
  port : t.port = s.port
  responses : t.responses = s.responses
  trace : ∃ evs, t.trace = s.trace ++ evs ∧ oneAddress s.params evs

theorem Extends.refl (s : State) : Extends s s := ⟨rfl, rfl, rfl, rfl, rfl, [], by simp, by simp [oneAddress]⟩

theorem Extends.trans {s t u : State} (h : Extends s t) (k : Extends t u) : Extends s u := by
  obtain ⟨c, p, q, o, r, e, he, ha⟩ := h
  obtain ⟨c', p', q', o', r', e', he', ha'⟩ := k
  refine ⟨c'.trans c, p'.trans p, q'.trans q, o'.trans o, r'.trans r, e ++ e', by rw [he', he, List.append_assoc], ?_⟩
  intro x hx a hxa
  obtain hx | hx := List.mem_append.mp hx
  · exact ha x hx a hxa
  · exact p ▸ ha' x hx a hxa

/-- The state a run ends in, if it ends. -/
def Run.endsIn (r : Run) (t : State) : Prop := r = .done t ∨ ∃ e, r = .aborted t e

theorem endsIn_andThen {r : Run} {f : State → Run} {s u : State} (h : (r.andThen f).endsIn u)
    (hr : ∀ t, r.endsIn t → Extends s t) (hf : ∀ t v, (f t).endsIn v → Extends t v) : Extends s u := by
  cases r with
  | done t => exact (hr t (.inl rfl)).trans (hf t u h)
  | aborted t e =>
    obtain h | ⟨e', h⟩ := h
    · cases h
    · cases h; exact hr _ (.inr ⟨e, rfl⟩)
  | hung => obtain h | ⟨e', h⟩ := h <;> cases h

theorem busPort_extends {v : Byte} {s t : State} (h : (busPort v s).endsIn t) : Extends s t := by
  cases hb : s.bus.answer with
  | ok =>
    rw [busPort_ok hb] at h
    obtain h | ⟨e, h⟩ := h <;> cases h
    exact ⟨rfl, rfl, rfl, rfl, rfl, _, rfl, by simp [oneAddress, Event.addr?]⟩
  | fail e =>
    rw [busPort_fail hb] at h
    obtain h | ⟨e, h⟩ := h <;> cases h
    exact ⟨rfl, rfl, rfl, rfl, rfl, _, rfl, by simp [oneAddress, Event.addr?]⟩
  | silent => rw [busPort_silent hb] at h; obtain h | ⟨e, h⟩ := h <;> cases h

theorem play_extends {l : List Event} {s t : State} (h : (play l s).endsIn t) : Extends s t := by
  induction l generalizing s t with
  | nil =>
    obtain h | ⟨e, h⟩ := h <;> cases h
    exact Extends.refl _
  | cons e l ih =>
    cases e with
    | hold g =>
      have hs : Extends s (s.emit (.hold g)) :=
        ⟨rfl, rfl, rfl, rfl, rfl, [.hold g], rfl, by simp [oneAddress, Event.addr?]⟩
      exact hs.trans (ih (s := s.emit (.hold g)) h)
    | wrote a v => exact endsIn_andThen h (fun _ => busPort_extends) fun _ _ hv => ih hv
    | failed a v => exact endsIn_andThen h (fun _ => busPort_extends) fun _ _ hv => ih hv

/-- One statement. -/
theorem runStmt_extends {x : Stmt} {s t : State} (h : (runStmt x s).endsIn t) : Extends s t := by
  by_cases hx : x.plain = true
  · rw [runStmt_eq_play hx] at h; exact play_extends h
  · cases x <;> first | exact absurd rfl hx | skip
    all_goals
      obtain h | ⟨e, h⟩ := h <;> cases h
      exact ⟨rfl, rfl, rfl, rfl, rfl, [], by simp, by simp [oneAddress]⟩

/-- Any statements, in any state. -/
theorem runStmts_extends {xs : List Stmt} {s t : State} (h : (runStmts xs s).endsIn t) : Extends s t := by
  induction xs generalizing s t with
  | nil =>
    obtain h | ⟨e, h⟩ := h <;> cases h
    exact Extends.refl _
  | cons x xs ih => exact endsIn_andThen h (fun _ => runStmt_extends) fun _ _ hv => ih hv

/-- How the end of a request's statements shows outside: the response, and `SEQ` idle. -/
theorem complete_next {xs : List Stmt} {s t : State} (h : complete (runStmts xs s) = .next t) :
    ∃ u r, Extends s u ∧ t = { u with seq := .idle, responses := s.responses ++ [r] } := by
  cases hr : runStmts xs s with
  | done u =>
    rw [hr] at h; cases h
    have hu := runStmts_extends (.inl hr)
    exact ⟨u, .ok, hu, by simp [returnOk, hu.responses]⟩
  | aborted u e =>
    rw [hr] at h; cases h
    have hu := runStmts_extends (.inr ⟨e, hr⟩)
    exact ⟨u, .err e, hu, by simp [takeBusFailure, hu.responses]⟩
  | hung => rw [hr] at h; cases h

/-! ### `SEQ` is not read by any statement -/

/-- The same run, in a state with another `SEQ`. -/
def Run.withSeq (q : Seq) : Run → Run
  | .done s => .done { s with seq := q }
  | .aborted s e => .aborted { s with seq := q } e
  | .hung => .hung

theorem withSeq_andThen {q : Seq} {r : Run} {f : State → Run}
    (h : ∀ t, f { t with seq := q } = (f t).withSeq q) : (r.withSeq q).andThen f = (r.andThen f).withSeq q := by
  cases r with
  | done t => exact h t
  | aborted t e => rfl
  | hung => rfl

theorem busPort_withSeq (v : Byte) (q : Seq) (s : State) :
    busPort v { s with seq := q } = (busPort v s).withSeq q := by
  cases hb : s.bus.answer with
  | ok => rw [busPort_ok hb, busPort_ok (s := { s with seq := q }) hb]; rfl
  | fail e => rw [busPort_fail hb, busPort_fail (s := { s with seq := q }) hb]; rfl
  | silent => rw [busPort_silent hb, busPort_silent (s := { s with seq := q }) hb]; rfl

theorem play_withSeq (l : List Event) (q : Seq) (s : State) :
    play l { s with seq := q } = (play l s).withSeq q := by
  induction l generalizing s with
  | nil => rfl
  | cons e l ih =>
    cases e with
    | hold g => exact ih (s.emit (.hold g))
    | wrote a v => simp only [play, busPort_withSeq]; exact withSeq_andThen ih
    | failed a v => simp only [play, busPort_withSeq]; exact withSeq_andThen ih

theorem runStmt_withSeq (x : Stmt) (q : Seq) (s : State) :
    runStmt x { s with seq := q } = (runStmt x s).withSeq q := by
  by_cases hx : x.plain = true
  · rw [runStmt_eq_play hx, runStmt_eq_play hx, ← play_withSeq]
    cases x <;> rfl
  · cases x <;> first | exact absurd rfl hx | rfl

theorem runStmts_withSeq (xs : List Stmt) (q : Seq) (s : State) :
    runStmts xs { s with seq := q } = (runStmts xs s).withSeq q := by
  induction xs generalizing s with
  | nil => rfl
  | cons x xs ih => simp only [runStmts, runStmt_withSeq]; exact withSeq_andThen ih

/-- The end of a request does not depend on the `SEQ` it was started with. -/
theorem complete_withSeq (q : Seq) (r : Run) : complete (r.withSeq q) = complete r := by
  cases r <;> rfl

theorem runStmts_append (xs ys : List Stmt) (s : State) :
    runStmts (xs ++ ys) s = (runStmts xs s).andThen (runStmts ys) := by
  induction xs generalizing s with
  | nil => rfl
  | cons x xs ih =>
    simp only [List.cons_append, runStmts, andThen_assoc]
    exact andThen_congr fun t _ => ih t

end Sys2Proof.Machine
end

