-- ==== Sys2Proof/Laws/PerInstr.lean ====
section
/-! SUPPORT. Laws/PerInstr.lean: for each instruction, that its encoding lies in its own row of the opcode table and is a
well-formed port item. -/

namespace Sys2Proof

/-- A request word is in a row exactly when each of its three fields is. -/
theorem row_holds (op om ov : BitVec 4) (a b am bm av bv : Byte) :
    Row.holds ⟨reqWord om am bm, reqWord ov av bv⟩ (reqWord op a b) =
      (op &&& om == ov && a &&& am == av && b &&& bm == bv) := by
  have hand : reqWord op a b &&& reqWord om am bm = reqWord (op &&& om) (a &&& am) (b &&& bm) := by
    refine BitVec.eq_of_getLsbD_eq fun i hi => ?_
    simp only [reqWord]
    interval_cases i <;> simp
  rw [Row.holds, hand, Bool.eq_iff_iff]
  simp only [Bool.and_eq_true, beq_iff_eq]
  refine ⟨fun h => ?_, fun ⟨⟨ho, ha⟩, hb⟩ => by rw [ho, ha, hb]⟩
  have ho := congrArg reqOp h
  have ha := congrArg reqA h
  have hb := congrArg reqB h
  simp only [Machine.reqOp_reqWord, Machine.reqA_reqWord, Machine.reqB_reqWord] at ho ha hb
  exact ⟨⟨ho, ha⟩, hb⟩

/-- The row of the opcode table an item of this instruction must lie in (30_encoding.md R62, R65 to R71). -/
def inOwnRow : Instr → PortItem → Bool
  | .init, .word w _ => (Row.mk 0xFFFFF#20 0x00000).holds w
  | .clear, .word w _ => (Row.mk 0xFFFFF#20 0x10000).holds w
  | .entry _ _, .word w _ => (Row.mk 0xFFFFC#20 0x20000).holds w
  | .power _, .word w _ => (Row.mk 0xFFFFE#20 0x30000).holds w
  | .cursor _, .word w _ => (Row.mk 0xFFFFE#20 0x40000).holds w
  | .blink _, .word w _ => (Row.mk 0xFFFFE#20 0x50000).holds w
  | .backlight _, .word w _ => (Row.mk 0xFFFFE#20 0x60000).holds w
  | .text _ _ _, .word w _ => (Row.mk 0xF0000#20 0x70000).holds w
  | .cmd _ _, .word w _ => (Row.mk 0xFF800#20 0x80000).holds w
  | .write _ _, .word w _ => (Row.mk 0xFFE00#20 0x90000).holds w
  | .clearDisplay, .commandByte b => (Row.mk 0xFF#8 0x01).holds b
  | .returnHome, .commandByte b => (Row.mk 0xFF#8 0x02).holds b
  | .entryModeSet _ _, .commandByte b => (Row.mk 0xFC#8 0x04).holds b
  | .displayControl _ _ _, .commandByte b => (Row.mk 0xF8#8 0x08).holds b
  | .cursorShift _ _ _, .commandByte b => (Row.mk 0xF0#8 0x10).holds b
  | .functionSet _ _ _ _, .commandByte b => (Row.mk 0xE0#8 0x20).holds b
  | .setCgramAddr _, .commandByte b => (Row.mk 0xC0#8 0x40).holds b
  | .setDdramAddr _, .commandByte b => (Row.mk 0x80#8 0x80).holds b
  | _, _ => false

namespace Laws.TableRow

/-- The instruction's encoding lies in the instruction's own row, and only `TEXT` comes with a side operand. -/
def Statement (i : Instr) : Prop := inOwnRow i (encode i) = true ∧ (encode i).wf = true

theorem init : Statement .init := by unfold Statement; decide
theorem clear : Statement .clear := by unfold Statement; decide
theorem entry (dir : Dir) (sh : Shift) : Statement (.entry dir sh) := by
  cases dir <;> cases sh <;> (unfold Statement; decide)
theorem power (on : Bool) : Statement (.power on) := by cases on <;> (unfold Statement; decide)
theorem cursor (on : Bool) : Statement (.cursor on) := by cases on <;> (unfold Statement; decide)
theorem blink (on : Bool) : Statement (.blink on) := by cases on <;> (unfold Statement; decide)
theorem backlight (on : Bool) : Statement (.backlight on) := by cases on <;> (unfold Statement; decide)

theorem text (row col : Byte) (chars : List Byte) : Statement (.text row col chars) := by
  refine ⟨?_, ?_⟩
  · have h : inOwnRow (.text row col chars) (encode (.text row col chars)) =
        Row.holds ⟨reqWord 0xF 0 0, reqWord 7 0 0⟩ (reqWord 7 row col) := rfl
    rw [h, row_holds]
    simp
  · have h : (reqWord 7#4 row col).extractLsb' 16 4 = 7#4 := Machine.reqOp_reqWord _ _ _
    simp [encode, PortItem.wf, h]

theorem cmd (k : Opcode) (data : Byte) : Statement (.cmd k data) := by
  refine ⟨?_, rfl⟩
  have h : inOwnRow (.cmd k data) (encode (.cmd k data)) =
      Row.holds ⟨reqWord 0xF 0xF8 0, reqWord 8 0 0⟩ (reqWord 8 (0#5 ++ k.toBits) data) := rfl
  rw [h, row_holds]
  cases k <;> simp [Opcode.toBits]

theorem write (byte : Byte) (rs : Rs) : Statement (.write byte rs) := by
  refine ⟨?_, rfl⟩
  have h : inOwnRow (.write byte rs) (encode (.write byte rs)) =
      Row.holds ⟨reqWord 0xF 0xFE 0, reqWord 9 0 0⟩ (reqWord 9 (bitByte rs.toBit) byte) := rfl
  rw [h, row_holds]
  cases rs <;> simp [Rs.toBit, bitByte]

theorem clearDisplay : Statement .clearDisplay := by unfold Statement; decide
theorem returnHome : Statement .returnHome := by unfold Statement; decide
theorem entryModeSet (d s : Bool) : Statement (.entryModeSet d s) := by
  cases d <;> cases s <;> (unfold Statement; decide)
theorem displayControl (p c b : Bool) : Statement (.displayControl p c b) := by
  cases p <;> cases c <;> cases b <;> (unfold Statement; decide)
theorem cursorShift (s r : Bool) (x : BitVec 2) : Statement (.cursorShift s r x) := by
  unfold Statement; revert s r x; decide
theorem functionSet (w l m : Bool) (x : BitVec 2) : Statement (.functionSet w l m x) := by
  unfold Statement; revert w l m x; decide
theorem setCgramAddr (a : BitVec 6) : Statement (.setCgramAddr a) := by
  unfold Statement; revert a; decide
theorem setDdramAddr (a : BitVec 7) : Statement (.setDdramAddr a) := by
  unfold Statement; revert a; decide

end Laws.TableRow

end Sys2Proof
end

