-- ==== Sys2Proof/Tests/Slice0.lean ====
section
/-! SUPPORT. Tests/Slice0.lean: the checks of WellFormed.lean refuse ill-formed terms; every constructor's word decodes; one step
of each instruction gives the bytes of 95_test_vectors.md; and a witness for the hypotheses of every statement. Expected values
are the spec's, written out by hand from the rule or vector named. -/

namespace Sys2Proof.Tests

open Sys2Proof.Machine

/-! ### States to test on -/

/-- The default encoding, with an address and a `T_CMD` chosen for the tests. -/
def params : Params := { Params.standard with i2cAddr := 0x27, tCmd := 0 }

/-- An idle encoder in 4-bit word width, two lines, 5×8; `DISP` (on, off, off); the bus answers `ok`. -/
def w4 (bl : Bool) : State := { State.resetWith params with bl := bl }

/-- An idle encoder in 8-bit word width, one line, 5×10; `DISP` all on; the bus answers `ok`. -/
def w8 (bl : Bool) : State :=
  { State.resetWith params with cfg := ⟨.w8, .l1, .m5x10⟩, disp := ⟨true, true, true⟩, bl := bl }

/-- The same state with a bus that fails write `n`, counted from 0. -/
def failing (s : State) (n : Nat) : State :=
  { s with bus := ⟨List.replicate n .ok ++ [.fail .ioError], .ok⟩ }

/-- The same state with a bus that never answers write `n`. -/
def silent (s : State) (n : Nat) : State := { s with bus := ⟨List.replicate n .ok ++ [.silent], .ok⟩ }

/-- The state an outcome goes on in, if it does. -/
def after : Host.Outcome State Fault Refusal → Option State
  | .next t => some t
  | .fault _ => none
  | .refused _ => none

/-- The bytes an instruction puts on the bus. -/
def bytes (i : Instr) (s : State) : Option (List Byte) := (after (exec i s)).map fun t => busBytes t.trace

/-- The flags, the backlight and the responses an instruction leaves. -/
def left (i : Instr) (s : State) : Option (Disp × Bool × List Response) :=
  (after (exec i s)).map fun t => (t.disp, t.bl, t.responses)

/-! ### Ill-formed terms are refused (00_scope.md R8, decision D11, R62) -/

theorem test_wf_accepts_the_defaults : params.wf = true := by decide
/-- R8 (a): two overlay bits alike. -/
theorem test_wf_refuses_equal_overlays : ({ params with rwBit := 0x01 } : Params).overlaysDistinct = false := by decide
/-- R8 (a): an overlay with two bits. -/
theorem test_wf_refuses_wide_overlay : ({ params with enBit := 0x06 } : Params).overlaysDistinct = false := by decide
/-- R8 (b): an overlay in the data nibble. -/
theorem test_wf_refuses_high_overlay : ({ params with blBit := 0x80 } : Params).overlaysLow = false := by decide
/-- R8 (c): two bases alike. -/
theorem test_wf_refuses_equal_bases : ({ params with opbHome := 0x01 } : Params).basesDistinct = false := by decide
/-- R8 (c): a base with no bit. -/
theorem test_wf_refuses_empty_base : ({ params with opbFset := 0x00 } : Params).basesDistinct = false := by decide
theorem test_wf_refuses_each_of_them :
    ({ params with rwBit := 0x01 } : Params).wf = false ∧ ({ params with blBit := 0x80 } : Params).wf = false ∧
      ({ params with opbHome := 0x01 } : Params).wf = false := by decide
theorem test_wf_refuses_long_text : (Instr.text 1 0 [0x48, 0x69]).wf (some 1) = false := by decide
theorem test_wf_accepts_longest_text : (Instr.text 1 0 [0x48, 0x69]).wf (some 2) = true := by decide
theorem test_wf_refuses_stray_text : (PortItem.word 0x00000 [0x48]).wf = false := by decide

/-! ### Decoding: every constructor, from R62 and R65 to R71, bit by bit -/

theorem test_decode_init : decodeTableWord 24 0b0000_00000000_00000000 = some .init := by decide
theorem test_decode_clear : decodeTableWord 24 0b0001_00000000_00000000 = some .clear := by decide
theorem test_decode_entry : decodeTableWord 24 0b0010_00000000_00000010 = some (.entry .left .noShift) := by decide
theorem test_decode_entry_shift : decodeTableWord 24 0b0010_00000000_00000001 = some (.entry .right .shift) := by decide
theorem test_decode_power : decodeTableWord 24 0b0011_00000000_00000001 = some (.power true) := by decide
theorem test_decode_cursor : decodeTableWord 24 0b0100_00000000_00000001 = some (.cursor true) := by decide
theorem test_decode_blink : decodeTableWord 24 0b0101_00000000_00000000 = some (.blink false) := by decide
theorem test_decode_backlight : decodeTableWord 24 0b0110_00000000_00000001 = some (.backlight true) := by decide
theorem test_decode_text : decodeItem (.word 0b0111_00000010_00000011 [0x48, 0x69]) = .instr (.text 2 3 [0x48, 0x69]) := by
  decide
theorem test_decode_cmd : decodeTableWord 24 0b1000_00000110_00001000 = some (.cmd .setCgramAddr 0x08) := by decide
theorem test_decode_write : decodeTableWord 24 0b1001_00000001_01000001 = some (.write 0x41 .data) := by decide
theorem test_decode_clearDisplay : decodeTableWord 8 0b00000001 = some .clearDisplay := by decide
theorem test_decode_returnHome : decodeTableWord 8 0b00000010 = some .returnHome := by decide
theorem test_decode_entryModeSet : decodeTableWord 8 0b00000110 = some (.entryModeSet true false) := by decide
theorem test_decode_displayControl : decodeTableWord 8 0b00001101 = some (.displayControl true false true) := by decide
theorem test_decode_cursorShift : decodeTableWord 8 0b00011001 = some (.cursorShift true false 1) := by decide
theorem test_decode_functionSet : decodeTableWord 8 0b00110110 = some (.functionSet true false true 2) := by decide
theorem test_decode_setCgramAddr : decodeTableWord 8 0b01001000 = some (.setCgramAddr 0b001000) := by decide
theorem test_decode_setDdramAddr : decodeTableWord 8 0b11000011 = some (.setDdramAddr 0b1000011) := by decide
/-- R78, R79, R65: reserved `op`, a must-be-zero bit, the bytes of no row. -/
theorem test_decode_rejects :
    decodeItem (.word 0xA0000 []) = .rejected .reservedOp ∧ decodeItem (.word 0xFFFFF []) = .rejected .reservedOp ∧
      decodeItem (.word 0x30002 []) = .rejected .mustBeZero ∧ decodeItem (.word 0x80800 []) = .rejected .mustBeZero ∧
      decodeItem (.commandByte 0x00) = .rejected .zeroCommandByte ∧
      decodeItem (.commandByte 0x03) = .rejected .noCommandRow := by decide
/-- A word that does not fit its format is no item. -/
theorem test_decode_pad_bits : decodeTableWord 24 0x100000 = none ∧ decodeTableWord 8 0x100 = none := by decide

/-! ### One step of each instruction -/

/-- V-INIT-1, the full trace. -/
theorem test_init_trace : (after (exec .init (w4 true))).map State.trace = some
    ([.wrote 0x27 0x3C, .hold .tEn, .wrote 0x27 0x38, .hold .tPost, .hold .tCmd] ++
     [.wrote 0x27 0x3C, .hold .tEn, .wrote 0x27 0x38, .hold .tPost, .hold .tCmd] ++
     [.wrote 0x27 0x3C, .hold .tEn, .wrote 0x27 0x38, .hold .tPost, .hold .tCmd] ++
     [.wrote 0x27 0x2C, .hold .tEn, .wrote 0x27 0x28, .hold .tPost, .hold .tCmd] ++
     [.wrote 0x27 0x2C, .hold .tEn, .wrote 0x27 0x28, .hold .tPost, .wrote 0x27 0x8C, .hold .tEn, .wrote 0x27 0x88, .hold .tPost] ++
     [.wrote 0x27 0x0C, .hold .tEn, .wrote 0x27 0x08, .hold .tPost, .wrote 0x27 0xCC, .hold .tEn, .wrote 0x27 0xC8, .hold .tPost] ++
     [.wrote 0x27 0x0C, .hold .tEn, .wrote 0x27 0x08, .hold .tPost, .wrote 0x27 0x1C, .hold .tEn, .wrote 0x27 0x18, .hold .tPost] ++
     [.wrote 0x27 0x0C, .hold .tEn, .wrote 0x27 0x08, .hold .tPost, .wrote 0x27 0x6C, .hold .tEn, .wrote 0x27 0x68, .hold .tPost] ++
     [.hold .tSettle]) := by decide

/-- V-INIT-3: 8-bit word width. -/
theorem test_init_w8 : bytes .init (w8 false) = some
    [0x34, 0x30, 0x34, 0x30, 0x34, 0x30, 0x24, 0x20, 0x34, 0x30, 0x0F, 0x0B, 0x05, 0x01, 0x06, 0x02] := by decide

/-- V-CLEAR. -/
theorem test_clear : bytes .clear (w4 true) = some [0x0C, 0x08, 0x1C, 0x18] := by decide
/-- V-ENTRY. -/
theorem test_entry : bytes (.entry .left .shift) (w4 true) = some [0x0C, 0x08, 0x7C, 0x78] ∧
    bytes (.entry .right .noShift) (w4 true) = some [0x0C, 0x08, 0x4C, 0x48] := by decide
/-- V-SET-5. -/
theorem test_power : bytes (.power false) (w4 false) = some [0x04, 0x00, 0x84, 0x80] ∧
    left (.power false) (w4 false) = some (⟨false, false, false⟩, false, [.ok]) := by decide
/-- V-SET-1. -/
theorem test_cursor : bytes (.cursor true) (w4 true) = some [0x0C, 0x08, 0xEC, 0xE8] ∧
    left (.cursor true) (w4 true) = some (⟨true, true, false⟩, true, [.ok]) := by decide
/-- V-FAIL-3: the third write fails; the field keeps its new value. -/
theorem test_cursor_failed : (after (exec (.cursor true) (failing (w4 true) 2))).map State.trace = some
      [.wrote 0x27 0x0C, .hold .tEn, .wrote 0x27 0x08, .hold .tPost, .failed 0x27 0xEC] ∧
    left (.cursor true) (failing (w4 true) 2) = some (⟨true, true, false⟩, true, [.err .ioError]) := by decide
/-- V-APPLY, row (1,0,1). -/
theorem test_blink : bytes (.blink true) (w4 false) = some [0x04, 0x00, 0xD4, 0xD0] ∧
    left (.blink true) (w4 false) = some (⟨true, false, true⟩, false, [.ok]) := by decide
/-- V-BL-1, V-BL-2. -/
theorem test_backlight : (after (exec (.backlight true) (w4 false))).map State.trace = some [.wrote 0x27 0x08] ∧
    (after (exec (.backlight false) (w4 true))).map State.trace = some [.wrote 0x27 0x00] := by decide
/-- V-FAIL-5. -/
theorem test_backlight_failed :
    left (.backlight true) (failing (w4 false) 0) = some (⟨true, false, false⟩, true, [.err .ioError]) := by decide
/-- V-TEXT, `TEXT 2, 3, "Hi"`. -/
theorem test_text : bytes (.text 2 3 [0x48, 0x69]) (w4 true) = some
    [0xCC, 0xC8, 0x3C, 0x38, 0x4D, 0x49, 0x8D, 0x89, 0x6D, 0x69, 0x9D, 0x99] := by decide
/-- V-TEXT, the fallback row, the aliasing and the wrap. -/
theorem test_text_rows : bytes (.text 9 7 [0x41]) (w4 false) = some [0x84, 0x80, 0x74, 0x70, 0x45, 0x41, 0x15, 0x11] ∧
    bytes (.text 3 5 []) (w4 false) = some [0x94, 0x90, 0x94, 0x90] ∧
    bytes (.text 2 0x40 []) (w4 false) = some [0x84, 0x80, 0x04, 0x00] ∧
    bytes (.text 2 0xC5 []) (w4 false) = some [0x84, 0x80, 0x54, 0x50] := by decide
/-- V-CMD. -/
theorem test_cmd : bytes (.cmd .setCgramAddr 0x08) (w4 false) = some [0x44, 0x40, 0x84, 0x80] ∧
    bytes (.cmd .clearDisplay 0x80) (w4 false) = some [0x84, 0x80, 0x14, 0x10] := by decide
/-- V-WRITE. -/
theorem test_write : bytes (.write 0xA5 .data) (w4 true) = some [0xAD, 0xA9, 0x5D, 0x59] ∧
    bytes (.write 0xFF .data) (w8 false) = some [0xFF, 0xFB] := by decide
/-- V-CLEAR, V-CMD: the command bytes `0x01`, `0x02`. -/
theorem test_clearDisplay : bytes .clearDisplay (w4 false) = some [0x04, 0x00, 0x14, 0x10] := by decide
theorem test_returnHome : bytes .returnHome (w4 false) = some [0x04, 0x00, 0x24, 0x20] := by decide
/-- V-ENTRY, row `LEFT, SHIFT` (`0x07`). -/
theorem test_entryModeSet : bytes (.entryModeSet true true) (w4 true) = some [0x0C, 0x08, 0x7C, 0x78] := by decide
/-- V-APPLY, row (1,0,1) (`0x0D`); `DISP` stays. -/
theorem test_displayControl : bytes (.displayControl true false true) (w4 false) = some [0x04, 0x00, 0xD4, 0xD0] ∧
    left (.displayControl true false true) (w4 false) = some (⟨true, false, false⟩, false, [.ok]) := by decide
/-- V-CMD, `CMD CURSOR_SHIFT, 0x0C` (`0x1C`). -/
theorem test_cursorShift : bytes (.cursorShift true true 0) (w4 false) = some [0x14, 0x10, 0xC4, 0xC0] := by decide
/-- V-FSET, row W8, L1, 5×10 (`0x34`), sent by a 4-bit encoder with the rule of V-WRITE. -/
theorem test_functionSet : bytes (.functionSet false true true 0) (w4 false) = some [0x24, 0x20, 0xC4, 0xC0] := by decide
/-- V-CMD, `CMD SET_CGRAM_ADDR, 0x08` (`0x48`). -/
theorem test_setCgramAddr : bytes (.setCgramAddr 0b001000) (w4 false) = some [0x44, 0x40, 0x84, 0x80] := by decide
/-- V-TEXT, `TEXT 3, 5, {}` (`0x99`). -/
theorem test_setDdramAddr : bytes (.setDdramAddr 0b0011001) (w4 false) = some [0x94, 0x90, 0x94, 0x90] := by decide

/-- V-REFUSE: a step on a reserved word is refused. -/
theorem test_reserved_refused :
    step ((w4 false).present (.word 0xA0000 [])) = .refused (.reserved .reservedOp) ∧
      step ((w4 false).present (.word 0x30002 [])) = .refused (.reserved .mustBeZero) := ⟨rfl, rfl⟩
/-- U9: a bus that never answers. -/
theorem test_silent_bus : exec (.cursor true) (silent (w4 false) 1) = .fault .busNeverAnswers := rfl
/-- P2: the second request sees the backlight the first one set. -/
theorem test_step_takes_first_item : (after (step { w4 false with
      port := [.word 0x60001 [], .word 0x70203 [0x48, 0x69]] })).map (fun t => (t.port, busBytes t.trace)) =
    some ([.word 0x70203 [0x48, 0x69]], [0x08]) := by decide
/-- R82, R83: the assembler's names (the lines of P3 and P5). -/
theorem test_assembler : assembleLine "BACKLIGHT OFF ; comment".toList = some (.request (.backlight false)) ∧
    assembleLine "GOTO 2, 3".toList = some (.request (.text 2 3 [])) ∧
    assembleLine ".reset DISP=(1,0,0), BL=1".toList = some (.reset ⟨true, false, false⟩ true) ∧
    assembleLine "CLEAR 1".toList = none := by decide +kernel

/-! ### Witnesses: the hypotheses of the statements can be met

A bus that answers `ok` acknowledges any events; `failing s n` fails write `n`. Each witness names the statement it is for and
takes the first and the last write of the instruction's events. -/

theorem witness_InitRunsHandshakeThenCommands :
    let s := w4 true
    let evs := instrTrace .init s
    s.seq = .idle ∧ Acknowledges s.bus evs ∧ FailsAt (failing s 0).bus 0 .ioError evs ∧
      FailsAt (failing s 23).bus 23 .ioError evs ∧ FailsAt (failing (w8 true) 15).bus 15 .ioError (instrTrace .init (w8 true)) := by
  decide

theorem witness_ClearSendsClearDisplay :
    let s := w4 true
    let evs := byteTrace params .w4 true 0x01 .cmd
    s.seq = .idle ∧ Acknowledges s.bus evs ∧ FailsAt (failing s 0).bus 0 .ioError evs ∧
      FailsAt (failing s 3).bus 3 .ioError evs := by decide

theorem witness_EntrySendsEntryModeSet :
    let s := w8 false
    let evs := byteTrace params .w8 false 0x07 .cmd
    s.seq = .idle ∧ Acknowledges s.bus evs ∧ FailsAt (failing s 0).bus 0 .ioError evs ∧
      FailsAt (failing s 1).bus 1 .ioError evs := by decide

theorem witness_SettersWriteAndApply :
    let s := w4 false
    let evs := byteTrace params .w4 false 0x0E .cmd
    s.seq = .idle ∧ Acknowledges s.bus evs ∧ FailsAt (failing s 0).bus 0 .ioError evs ∧
      FailsAt (failing s 3).bus 3 .ioError evs := by decide

theorem witness_BacklightWritesTheOverlayAlone :
    (w4 false).seq = .idle ∧ (w4 false).bus.answer = .ok ∧ (failing (w4 false) 0).bus.answer = .fail .ioError := by decide

theorem witness_TextSendsAddressThenCharacters :
    let s := w4 true
    let evs := instrTrace (.text 4 0xFF [0x00, 0xFF]) s
    s.seq = .idle ∧ textFits s.params.textMax [0x00, 0xFF] = true ∧ textFits (some 2) [0x00, 0xFF] = true ∧
      Acknowledges s.bus evs ∧ FailsAt (failing s 0).bus 0 .ioError evs ∧ FailsAt (failing s 11).bus 11 .ioError evs := by decide

theorem witness_LongTextIsRefused :
    let s := { w4 false with params := { params with textMax := some 1 } }
    s.seq = .idle ∧ s.params.textMax = some 1 ∧ 1 < [0x48#8, 0x69#8].length ∧
      exec (.text 1 0 [0x48, 0x69]) s = .refused .textTooLong := ⟨rfl, rfl, by decide, rfl⟩

theorem witness_CmdSendsBaseOrData :
    let s := w4 false
    let evs := byteTrace params .w4 false (0x80 ||| 0x7F) .cmd
    s.seq = .idle ∧ (Opcode.setDdramAddr, s.params.opbDdram) ∈ [(Opcode.clearDisplay, s.params.opbClear),
        (.setDdramAddr, s.params.opbDdram)] ∧
      Acknowledges s.bus evs ∧ FailsAt (failing s 0).bus 0 .ioError evs ∧ FailsAt (failing s 3).bus 3 .ioError evs := by decide

theorem witness_WriteSerializesTheByte :
    let evs4 := byteTrace params .w4 false 0xFF .data
    let evs8 := byteTrace params .w8 false 0xFF .data
    (w4 false).seq = .idle ∧ Acknowledges (w4 false).bus evs4 ∧ FailsAt (failing (w4 false) 3).bus 3 .ioError evs4 ∧
      (w8 false).seq = .idle ∧ Acknowledges (w8 false).bus evs8 ∧ FailsAt (failing (w8 false) 1).bus 1 .ioError evs8 := by decide

theorem witness_CommandBytesAreSentAsCommands :
    let evs := byteTrace params .w4 false (0x40 ||| 0x3F) .cmd
    (w4 false).seq = .idle ∧ Acknowledges (w4 false).bus evs ∧ FailsAt (failing (w4 false) 0).bus 0 .ioError evs ∧
      FailsAt (failing (w4 false) 3).bus 3 .ioError evs := by decide

/-- For `StrobeRaisesThenLowersEnable` and `NibbleIsOneStrobeThenTheCommandDelay`: both writes answered, the first failed, the
second failed, well-formed parameters. -/
theorem witness_StrobeAndNibble :
    (w4 true).bus.okFor 2 = true ∧ (failing (w4 true) 0).bus.answer = .fail .ioError ∧
      (failing (w4 true) 1).bus.answer = .ok ∧ (failing (w4 true) 1).bus.tail.answer = .fail .ioError ∧
      (w4 true).params.wf = true := by decide

theorem witness_BusWriteCarriesTheBacklightOverlay :
    (w4 true).bus.answer = .ok ∧ (failing (w4 true) 0).bus.answer = .fail .ioError ∧
      (silent (w4 true) 0).bus.answer = .silent := by decide

theorem witness_HighNibbleTravelsFirst :
    (w4 true).params.wf = true ∧ (w4 true).seq = .idle ∧ (w4 true).cfg.ww = .w4 ∧ (w4 true).bus.okFor 4 = true := by decide

theorem witness_EightBitOverlapsTheLowBits :
    (w8 false).params.wf = true ∧ (w8 false).seq = .idle ∧ (w8 false).cfg.ww = .w8 ∧ (w8 false).bus.okFor 2 = true := by decide

/-- For `BacklightPositionByWordWidth`, `ReadWriteBitClearInW4NibAndBacklight`, `EveryRequestStartsWithABusWrite`: an instruction
that answers a next state in each word width, with the backlight on and off, and `NIB` done and aborted. -/
theorem witness_InstructionsAnswerANextState :
    (w4 true).params.wf = true ∧ (w4 true).cfg.ww = .w4 ∧ (after (exec (.write 0xFF .data) (w4 true))).isSome = true ∧
      (w8 true).params.wf = true ∧ (w8 true).cfg.ww = .w8 ∧ (after (exec (.write 0xFF .data) (w8 true))).isSome = true ∧
      (after (exec (.backlight true) (w8 false))).map State.bl = some true ∧
      (after (exec (.write 0xFF .data) (w8 false))).map State.bl = some false ∧
      (∃ t, runStmt (.nib 0x3) (w4 true) = .done t) ∧ ∃ t e, runStmt (.nib 0x3) (failing (w4 true) 1) = .aborted t e :=
  ⟨by decide, by decide, by decide, by decide, by decide, by decide, by decide, by decide, ⟨_, rfl⟩, ⟨_, _, rfl⟩⟩

/-- For `EnableIsLowAfterSuccess`, `SuccessfulRequestsHaveFixedCounts`, `SuccessfulRequestsHaveMinimumDurations`: a successful
`INIT` with the nominal holds, and a statement performed to its end. -/
theorem witness_SuccessfulRequest :
    (w4 true).params.wf = true ∧
      (after (exec .init (w4 true))).map State.responses = some ((w4 true).responses ++ [.ok]) ∧
      (w4 true).params.tEn = 50000 ∧ (w4 true).params.tPost = 10000 ∧ (w4 true).params.tSettle = 200000000 ∧
      ∃ t, runStmt (.write 0xA5 .data) (w4 true) = .done t :=
  ⟨by decide, by decide, by decide, by decide, by decide, ⟨_, rfl⟩⟩

/-- For `RequestsWriteOnlyTheirOwnField`, `FailedWriteIsTheLastEvent`, `EarlierTrafficDoesNotMatter`: a successful and a failed
setter, each with the events and the response it added. -/
theorem witness_SetterSucceedsAndFails :
    (after (exec (.power false) (w4 false))).map State.responses = some ([] ++ [.ok]) ∧
      (after (exec (.power false) (failing (w4 false) 3))).map State.responses = some ([] ++ [.err .ioError]) ∧
      (after (exec (.power false) (failing (w4 false) 3))).map State.trace = some ((w4 false).trace ++
        [.wrote 0x27 0x04, .hold .tEn, .wrote 0x27 0x00, .hold .tPost, .wrote 0x27 0x84, .hold .tEn, .failed 0x27 0x80]) := by
  decide

/-- The bytes of the second of two instructions, both successful. -/
def bytesAfter (i j : Instr) (s : State) : Option (List Byte) :=
  (after (exec i s)).bind fun t => (after (exec j t)).bind fun u =>
    if t.responses = s.responses ++ [.ok] ∧ u.responses = t.responses ++ [.ok] then
      some ((busBytes u.trace).drop (busBytes t.trace).length)
    else none

/-- For `RawRequestsLeaveTheShadowAlone` (V-SHADOW; V-SET-5, V-SET-1; V-INIT-2): a raw display-control, by `CMD` and by `WRITE`, then
each request that applies `DISP`, all successful. -/
theorem witness_RawRequestsLeaveTheShadowAlone :
    bytesAfter (.cmd .displayControl 0x07) (.blink false) (w4 false) = some [0x04, 0x00, 0xC4, 0xC0] ∧
      bytesAfter (.write 0x0F .cmd) (.power false) (w4 false) = some [0x04, 0x00, 0x84, 0x80] ∧
      bytesAfter (.write 0x08 .cmd) (.cursor true) (w4 false) = some [0x04, 0x00, 0xE4, 0xE0] ∧
      bytesAfter (.write 0x0F .cmd) .init (w4 false) = some
        [0x34, 0x30, 0x34, 0x30, 0x34, 0x30, 0x24, 0x20, 0x24, 0x20, 0x84, 0x80, 0x04, 0x00, 0xC4, 0xC0, 0x04, 0x00, 0x14, 0x10,
          0x04, 0x00, 0x64, 0x60] := by decide

/-- For `SettersAreIdempotentOnDisp` (V-SET-3; V-APPLY for the other two): the same setter twice, both successful; a setter that
fails (V-FAIL-3); the default encoding. -/
theorem witness_SettersAreIdempotentOnDisp :
    (w4 false).params.standardEncoding ∧
      bytesAfter (.cursor true) (.cursor true) { w4 false with disp := ⟨false, true, true⟩ } = some [0x04, 0x00, 0xB4, 0xB0] ∧
      bytesAfter (.power false) (.power false) (w4 false) = some [0x04, 0x00, 0x84, 0x80] ∧
      bytesAfter (.blink true) (.blink true) (w4 false) = some [0x04, 0x00, 0xD4, 0xD0] ∧
      left (.cursor true) (failing (w4 false) 2) = some (⟨true, true, false⟩, false, [.err .ioError]) :=
  ⟨rfl, by decide, by decide, by decide, by decide⟩

/-- For `ConfigurationNeverChanges`, `StepsOnlyAppend`: a step and a micro-step that answer a next state. -/
theorem witness_StepAndMicroStep :
    (after (step ((w4 false).present (.word 0x10000 [])))).isSome = true ∧
      (after (microStep ((w4 false).present (.word 0x10000 [])))).isSome = true := by decide

/-- For `BusFailureCutsTheRequestShort` and `SilentBusIsStuck` (V-FAIL-4): `TEXT` adds 12 writes; write 5 is failed. -/
theorem witness_BusFailureCutsTheRequestShort :
    (after (exec (.text 1 0 [0x48, 0x69]) { w4 true with bus := ⟨[], .ok⟩ })).map (fun t => (writeCount t.trace, t.responses)) =
        some (12, [.ok]) ∧ (5 : Nat) < 12 ∧
      bytes (.text 1 0 [0x48, 0x69]) { w4 true with bus := ⟨List.replicate 5 .ok ++ .fail .ioError :: [], .ok⟩ } =
        some [0x8C, 0x88, 0x0C, 0x08, 0x4D, 0x49] := by decide

theorem witness_StepRunsTheDecodedRequest :
    let s := (w4 false).present (.word 0x10000 [])
    s.seq = .idle ∧ s.port = .word 0x10000 [] :: [] ∧ decodeItem (.word 0x10000 []) = .instr .clear ∧
      decodeTableWord 24 0x10000 = some .clear ∧ decodeTableWord 8 0x80 = some (.setDdramAddr 0) := by decide

/-- For `BusyEncoderAcceptsNothing`: a request in progress, finished by a step; an idle encoder with nothing presented. -/
theorem witness_BusyEncoderAcceptsNothing :
    let s := { w4 false with seq := .running [.delay .tSettle], port := [.word 0x10000 []] }
    s.seq ≠ .idle ∧ (after (step s)).map (fun t => (t.port, t.seq, t.responses)) =
        some ([.word 0x10000 []], .idle, [.ok]) ∧
      exec .clear s = .refused .busy ∧ (w4 false).seq = .idle ∧ (w4 false).port = [] :=
  ⟨by decide, by decide, rfl, rfl, rfl⟩

/-- For `ReservedWordsAreRefused`: the lowest and the highest reserved `op`, and a must-be-zero bit. -/
theorem witness_ReservedWordsAreRefused :
    (PortItem.word 0xA0000 []).inTable = false ∧ 0xA0000#20 ≤ 0xA0000#20 ∧ 0xA0000#20 ≤ 0xFFFFF#20 ∧
      (PortItem.word 0xFFFFF []).inTable = false ∧ (PortItem.word 0x30002 []).inTable = false ∧
      (w4 false).seq = .idle ∧
      ((w4 false).present (.word 0x30002 [])).port = .word 0x30002 [] :: [] := by decide

theorem witness_EncodeOfDecodeIsTheWord :
    (PortItem.word 0x70203 [0x48]).wf = true ∧ decodeItem (.word 0x70203 [0x48]) = .instr (.text 2 3 [0x48]) ∧
      (PortItem.commandByte 0x28).wf = true ∧ decodeItem (.commandByte 0x28) = .instr (.functionSet false true false 0) := by
  decide

theorem witness_BuildersAreRawCommands : (w4 false).seq = .idle := by decide

/-- For `CommandByteIsSentUnchanged`, `CommandByteFormats`, `DdramAddressTable`, `InvariantHoldsAtReset`: the defaults. -/
theorem witness_standardEncoding : params.standardEncoding ∧ (w4 false).params.standardEncoding ∧
    decodeCommandByte 0xFF = .instr (.setDdramAddr 0x7F) ∧ decodeCommandByte 0x01 = .instr .clearDisplay :=
  ⟨rfl, rfl, by decide, by decide⟩

/-- For the rows of `DdramAddressTable` and for `UnknownRowIsRowOne`: rows 0, 5 and 255 are none of the four. -/
theorem witness_UnknownRowIsRowOne : ∀ row ∈ [0#8, 5#8, 255#8], row ≠ 1 ∧ row ≠ 2 ∧ row ≠ 3 ∧ row ≠ 4 := by decide

/-- For `SameTracesCarryTheSameBytes`: two traces written differently that are the same; `T_CMD = 0`. -/
theorem witness_SameTracesCarryTheSameBytes :
    sameTrace params [.wrote 0x27 0x34, .hold .tEn, .hold .tPost] [.wrote 0x27 0x34, .hold .tPost, .hold .tCmd, .hold .tEn] ∧
      params.tCmd = 0 := ⟨by unfold sameTrace; decide, by decide⟩

/-- For `InvariantHoldsAtReset` and `EveryStepKeepsTheInvariant`: a state that meets the invariant, and a step from it. -/
theorem witness_EveryStepKeepsTheInvariant :
    params.wf = true ∧ Inv ((State.resetWith params).present (.word 0x00000 [])) ∧
      (after (step ((State.resetWith params).present (.word 0x00000 [])))).map (fun t => (t.responses, writeCount t.trace)) =
        some ([.ok], 24) := by
  refine ⟨by decide, ⟨by decide, rfl, rfl, ?_, ?_⟩, by decide⟩
  · intro e he
    cases he
  · intro _ v hv
    cases hv

end Sys2Proof.Tests
end

section
/-! PROOF. The family 00_scope.md: the trace (R11), the one response of a request (R11, R174), and the invariant (R8). -/

namespace Sys2Proof.Machine

/-! ### What a normalised trace still tells (00_scope.md R11) -/

/-- The byte a timed event puts on the bus, acknowledged or not. -/
def TimedEvent.byte? : TimedEvent → Option Byte
  | .wrote _ v => some v
  | .failed _ v => some v
  | .hold _ => none

/-- The duration a timed event takes at least. -/
def TimedEvent.duration : TimedEvent → Nat
  | .wrote _ _ => 0
  | .failed _ _ => 0
  | .hold ns => ns

/-- A hold put in front carries no byte. -/
theorem filterMap_byte_addHold (ns : Nat) (t : List TimedEvent) :
    (addHold ns t).filterMap TimedEvent.byte? = t.filterMap TimedEvent.byte? := by
  cases t with
  | nil => by_cases h : ns = 0 <;> simp [addHold, h, TimedEvent.byte?]
  | cons e t =>
    cases e with
    | wrote a v => by_cases h : ns = 0 <;> simp [addHold, h, TimedEvent.byte?, List.filterMap_cons]
    | failed a v => by_cases h : ns = 0 <;> simp [addHold, h, TimedEvent.byte?, List.filterMap_cons]
    | hold m => simp [addHold, TimedEvent.byte?, List.filterMap_cons]

/-- A hold put in front adds its duration, whether it is dropped, merged or kept. -/
theorem sum_duration_addHold (ns : Nat) (t : List TimedEvent) :
    ((addHold ns t).map TimedEvent.duration).sum = ns + (t.map TimedEvent.duration).sum := by
  cases t with
  | nil => by_cases h : ns = 0 <;> simp [addHold, h, TimedEvent.duration]
  | cons e t =>
    cases e with
    | wrote a v => by_cases h : ns = 0 <;> simp [addHold, h, TimedEvent.duration]
    | failed a v => by_cases h : ns = 0 <;> simp [addHold, h, TimedEvent.duration]
    | hold m => simp [addHold, TimedEvent.duration, Nat.add_assoc]

/-- Two holds put in front one after the other are one hold of both durations. -/
theorem addHold_addHold (m n : Nat) (t : List TimedEvent) : addHold m (addHold n t) = addHold (m + n) t := by
  cases t with
  | nil => by_cases h : n = 0 <;> simp [addHold, h]
  | cons e t =>
    cases e with
    | wrote a v => by_cases h : n = 0 <;> simp [addHold, h]
    | failed a v => by_cases h : n = 0 <;> simp [addHold, h]
    | hold k => simp [addHold, Nat.add_assoc]

/-- The bytes of a trace can be read off its normal form. -/
theorem busBytes_eq_normalise (p : Params) (t : List Event) :
    busBytes t = (normalise p t).filterMap TimedEvent.byte? := by
  induction t with
  | nil => rfl
  | cons e t ih =>
    cases e with
    | wrote a v => simp [normalise, ih, TimedEvent.byte?]
    | failed a v => simp [normalise, ih, TimedEvent.byte?]
    | hold h => simp [normalise, ih, filterMap_byte_addHold]

/-- The minimum duration of a trace can be read off its normal form. -/
theorem minDuration_eq_normalise (p : Params) (t : List Event) :
    minDuration p t = ((normalise p t).map TimedEvent.duration).sum := by
  induction t with
  | nil => rfl
  | cons e t ih =>
    cases e with
    | wrote a v => simp [normalise, ih, TimedEvent.duration]
    | failed a v => simp [normalise, ih, TimedEvent.duration]
    | hold h => simp [normalise, ih, sum_duration_addHold]

/-- Traces that are the same stay the same behind a common beginning. -/
theorem sameTrace_append_left {p : Params} {u w : List Event} (t : List Event) (h : sameTrace p u w) :
    sameTrace p (t ++ u) (t ++ w) := by
  unfold sameTrace at h ⊢
  induction t with
  | nil => exact h
  | cons e t ih => cases e <;> simp [normalise, ih]

/-- R155 (d): the order of two holds in a row does not matter. -/
theorem sameTrace_hold_swap (p : Params) (g h : Hold) (u : List Event) :
    sameTrace p (.hold g :: .hold h :: u) (.hold h :: .hold g :: u) := by
  simp only [sameTrace, normalise, addHold_addHold, Nat.add_comm]

/-- R155 (c): a hold of duration zero is no event. -/
theorem sameTrace_zero_hold {p : Params} {h : Hold} (h0 : p.duration h = 0) : sameTrace p [.hold h] [] := by
  simp [sameTrace, normalise, addHold, h0]

/-- Settles O47: bytes and minimum duration are functions of the normal form, and holds merge by addition. -/
theorem sameTracesCarryTheSameBytes : Obligations.SameTracesCarryTheSameBytes := by
  refine ⟨fun p t u h => ?_, fun p bl n h0 => ?_, fun p t u g h => ?_⟩
  · simp only [sameTrace] at h
    simp only [busBytes_eq_normalise p, minDuration_eq_normalise p, h, and_self]
  · have hz : sameTrace p [.hold .tCmd] [] := sameTrace_zero_hold h0
    simpa [nibTrace] using sameTrace_append_left (strobeTrace p bl (placeNibble n)) hz
  · exact sameTrace_append_left t (sameTrace_hold_swap p g h u)

/-! ### The events and the response of one request (60_exceptions.md R174, R175) -/

/-- What an instruction that answers a next state shows outside: `ok` after acknowledged writes and holds only, or `err(e)` after
such events and one failed write; every write to `I2C_ADDR`. -/
theorem exec_events {i : Instr} {s t : State} (h : exec i s = .next t) :
    ∃ evs, t.trace = s.trace ++ evs ∧
      ((t.responses = s.responses ++ [.ok] ∧ AllTo s.params.i2cAddr evs) ∨
        ∃ e before v, t.responses = s.responses ++ [.err e] ∧ evs = before ++ [.failed s.params.i2cAddr v] ∧
          AllTo s.params.i2cAddr before) := by
  have hall : AllTo s.params.i2cAddr (instrTrace i (s.assign i)) := allTo_instr i (s.assign i)
  obtain ⟨-, ⟨-, rfl⟩ | ⟨n, e, ⟨hn, -, -⟩, rfl⟩⟩ := exec_next h
  · exact ⟨_, rfl, .inl ⟨rfl, hall⟩⟩
  · obtain ⟨before, v, hcut, hbefore⟩ := cutAt_ends hall hn
    exact ⟨_, rfl, .inr ⟨e, before, v, rfl, hcut, hbefore⟩⟩

/-- Settles O31: a request's events are acknowledged writes and holds, up to the write that failed, if one did. -/
theorem failedWriteIsTheLastEvent : Obligations.FailedWriteIsTheLastEvent := by
  intro i s t h
  obtain ⟨evs, htrace, ⟨hok, hall⟩ | ⟨e, before, v, herr, hevs, hall⟩⟩ := exec_events h
  · exact ⟨evs, htrace, .inl ⟨hok, allTo_notFailed hall⟩⟩
  · exact ⟨evs, htrace, .inr ⟨e, before, _, v, herr, hevs, allTo_notFailed hall⟩⟩

/-! ### The invariant (10_state.md R22, R27; 20_memory.md R41; 44_pipeline.md R149) -/

/-- What no instruction changes: the parameters, `CFG` and the port; and `SEQ` is idle before it and after it. -/
theorem exec_frame {i : Instr} {s t : State} (h : exec i s = .next t) :
    t.params = s.params ∧ t.cfg = s.cfg ∧ t.port = s.port ∧ s.seq = .idle ∧ t.seq = .idle := by
  obtain ⟨⟨hseq, -⟩, ⟨-, rfl⟩ | ⟨n, e, -, rfl⟩⟩ := exec_next h <;> exact ⟨rfl, rfl, rfl, hseq, hseq⟩

@[simp] theorem oneAddress_append (p : Params) (t u : List Event) :
    oneAddress p (t ++ u) ↔ oneAddress p t ∧ oneAddress p u := by
  simp only [oneAddress, List.mem_append, or_imp, forall_and]

@[simp] theorem readWriteLow_append (p : Params) (t u : List Event) :
    readWriteLow p (t ++ u) ↔ readWriteLow p t ∧ readWriteLow p u := by
  simp only [readWriteLow, busBytes_append, List.mem_append, or_imp, forall_and]

theorem oneAddress_failed (p : Params) (v : Byte) : oneAddress p [.failed p.i2cAddr v] := by
  simp [oneAddress, Event.addr?]

theorem oneAddress_of_allTo {p : Params} {t : List Event} (h : AllTo p.i2cAddr t) : oneAddress p t := by
  intro e he a ha
  obtain ⟨v, rfl⟩ | ⟨g, rfl⟩ := h e he
  · exact (Option.some.inj ha).symm
  · cases ha

/-- R41: an instruction writes to no other address. -/
theorem exec_keeps_oneAddress {i : Instr} {s t : State} (h : exec i s = .next t)
    (hs : oneAddress s.params s.trace) : oneAddress s.params t.trace := by
  obtain ⟨evs, htrace, ⟨-, hall⟩ | ⟨e, before, v, -, rfl, hall⟩⟩ := exec_events h
  · rw [htrace, oneAddress_append]
    exact ⟨hs, oneAddress_of_allTo hall⟩
  · rw [htrace, oneAddress_append, oneAddress_append]
    exact ⟨hs, oneAddress_of_allTo hall, oneAddress_failed _ v⟩

/-- R149: in 4-bit word width an instruction adds no byte with the read-write position set. -/
theorem exec_keeps_readWriteLow {i : Instr} {s t : State} (h : exec i s = .next t) (hw : s.params.wf = true)
    (hww : s.cfg.ww = .w4) (hs : readWriteLow s.params s.trace) : readWriteLow s.params t.trace := by
  obtain ⟨evs, htrace, hbytes⟩ := exec_trace h
  rw [htrace, readWriteLow_append]
  refine ⟨hs, fun v hv => ?_⟩
  have hplaced : Placed s.params (s.assign i).bl v := placed_instr (s := s.assign i) hw (.inl hww) v (hbytes v hv)
  exact placed_rw hw hplaced

/-- Every instruction keeps the invariant. -/
theorem exec_keeps_inv {i : Instr} {s t : State} (hs : Inv s) (h : exec i s = .next t) : Inv t := by
  obtain ⟨hwf, hstraps, -, haddr, hrw⟩ := hs
  obtain ⟨hparams, hcfg, -, -, hseq⟩ := exec_frame h
  constructor
  case params_wf => rw [hparams]; exact hwf
  case cfg_straps => rw [hparams, hcfg]; exact hstraps
  case seq_idle => exact hseq
  case one_address => rw [hparams]; exact exec_keeps_oneAddress h haddr
  case read_write_low =>
    rw [hparams, hcfg]
    exact fun hww => exec_keeps_readWriteLow h hwf hww (hrw hww)

/-- What a step of an idle encoder can be: it waits, or it runs an instruction in the state without the item it took. -/
theorem step_idle_cases {s t : State} (hs : s.seq = .idle) (h : step s = .next t) :
    (s.port = [] ∧ t = s) ∨ ∃ item later i, s.port = item :: later ∧ decodeItem item = .instr i ∧
      exec i { s with port := later } = .next t := by
  cases hport : s.port with
  | nil =>
    simp only [step, take, hs, hport] at h
    cases h
    exact .inl ⟨rfl, rfl⟩
  | cons item later =>
    cases hitem : decodeItem item with
    | instr i =>
      simp only [step, take, hs, hport, hitem] at h
      exact .inr ⟨item, later, i, rfl, hitem, by simpa only [hs] using h⟩
    | rejected why =>
      simp only [step, take, hs, hport, hitem] at h
      cases h

/-- The invariant does not speak of what is presented. -/
theorem Inv.withPort {s : State} (h : Inv s) (port : List PortItem) : Inv { s with port := port } :=
  ⟨h.params_wf, h.cfg_straps, h.seq_idle, h.one_address, h.read_write_low⟩

/-- Settles O50: an encoder that meets the invariant is idle, so its step waits or runs one instruction. -/
theorem everyStepKeepsTheInvariant : Obligations.EveryStepKeepsTheInvariant := by
  intro s t hs h
  obtain ⟨-, rfl⟩ | ⟨item, later, i, -, -, hexec⟩ := step_idle_cases hs.seq_idle h
  · exact hs
  · exact exec_keeps_inv (hs.withPort later) hexec

end Sys2Proof.Machine
end

section
/-! PROOF. The family 10_state.md: `CFG` never changes (R22), and the micro-steps driven by `SEQ` (R27) agree with the step. -/

namespace Sys2Proof.Machine

/-! ### What a step starts from -/

/-- Only a request in progress is resumed. -/
theorem take_eq_resume {s : State} {xs : List Stmt} : take s = .resume xs ↔ s.seq = .running xs := by
  cases hseq : s.seq with
  | running rest => simp [take, hseq]
  | idle =>
    cases hport : s.port with
    | nil => simp [take, hseq, hport]
    | cons item later => cases hitem : decodeItem item <;> simp [take, hseq, hport, hitem]

/-- An instruction is taken by an idle encoder, and only the port is shorter then. -/
theorem take_instr {s t : State} {i : Instr} (h : take s = .instr i t) :
    s.seq = .idle ∧ ∃ later, t = { s with port := later } := by
  cases hseq : s.seq with
  | running rest => simp [take, hseq] at h
  | idle =>
    cases hport : s.port with
    | nil => simp [take, hseq, hport] at h
    | cons item later =>
      cases hitem : decodeItem item with
      | rejected why => simp [take, hseq, hport, hitem] at h
      | instr j =>
        simp only [take, hseq, hport, hitem, Taken.instr.injEq] at h
        exact ⟨rfl, later, by simp [← h.2]⟩

/-- An idle encoder runs an instruction's micro-sequence, or refuses a text that does not fit. -/
theorem exec_of_idle {i : Instr} {s : State} (hs : s.seq = .idle) :
    exec i s = if i.wf s.params.textMax then complete (runStmts (bodyOf s.params i) s) else .refused .textTooLong := by
  have hr : ∀ body, request body s = complete (runStmts body s) := fun body => by simp [request, hs]
  cases i with
  | text row col chars =>
    by_cases hfit : textFits s.params.textMax chars = true <;> simp [exec, execText, hr, bodyOf, Instr.wf, hfit]
  | _ => exact hr _

/-! ### One micro-step performs a statement or enters its pseudocode -/

/-- A measure of a statement: the most micro-steps it can take, its own and those of the pseudocode it enters. -/
def Stmt.maxSteps : Stmt → Nat
  | .setPower _ | .setCursor _ | .setBlink _ | .setBl _ | .busPort _ | .delay _ => 1
  | .busw _ => 2
  | .xmit _ => 7
  | .nib _ => 9
  | .write _ _ => 15
  | .fset | .apply => 16

/-- The measure of a list of statements. -/
def maxSteps (xs : List Stmt) : Nat := (xs.map Stmt.maxSteps).sum

@[simp] theorem maxSteps_nil : maxSteps [] = 0 := rfl
@[simp] theorem maxSteps_cons (x : Stmt) (xs : List Stmt) : maxSteps (x :: xs) = x.maxSteps + maxSteps xs := by
  simp [maxSteps]
@[simp] theorem maxSteps_append (xs ys : List Stmt) : maxSteps (xs ++ ys) = maxSteps xs + maxSteps ys := by
  simp [maxSteps]

theorem maxSteps_pos (x : Stmt) : 0 < x.maxSteps := by cases x <;> exact Nat.succ_pos _

/-- What a micro-step shows of a statement performed to its end: the next state, or the end of the request. -/
def Run.stmtOutcome : Run → Host.Outcome State Fault Refusal
  | .done s => .next s
  | .aborted s e => .next (takeBusFailure e s)
  | .hung => .fault .busNeverAnswers

theorem andThen_done_right (r : Run) : r.andThen .done = r := by cases r <;> rfl

theorem runStmts_singleton (x : Stmt) (s : State) : runStmts [x] s = runStmt x s := andThen_done_right _

/-- One micro-step of a statement either performs it to its end, or enters statements that do the same and are fewer micro-steps
away from the primitives. -/
theorem perform_cases (x : Stmt) (s : State) :
    perform x s = (runStmt x s).stmtOutcome ∨
      ∃ ys, perform x s = .next (s.enter ys) ∧ runStmts ys s = runStmt x s ∧ maxSteps ys < x.maxSteps := by
  cases x with
  | setPower on => exact .inl rfl
  | setCursor on => exact .inl rfl
  | setBlink on => exact .inl rfl
  | setBl on => exact .inl rfl
  | delay p => exact .inl rfl
  | busPort v =>
    refine .inl ?_
    simp only [perform, runStmt]
    cases busPort v s <;> rfl
  | busw v => exact .inr ⟨_, rfl, runStmts_singleton _ s, by simp [Stmt.maxSteps]⟩
  | fset => exact .inr ⟨_, rfl, runStmts_singleton _ s, by simp [Stmt.maxSteps]⟩
  | apply => exact .inr ⟨_, rfl, runStmts_singleton _ s, by simp [Stmt.maxSteps]⟩
  | xmit v =>
    refine .inr ⟨_, rfl, ?_, by simp [Stmt.maxSteps]⟩
    simp only [runStmts, runStmt, xmit, andThen_assoc, andThen_done_right]
  | nib n =>
    refine .inr ⟨_, rfl, ?_, by simp [Stmt.maxSteps]⟩
    simp only [runStmts, runStmt, nib, andThen_done_right]
  | write byte rs =>
    cases hww : s.cfg.ww with
    | w4 =>
      refine .inr ⟨[.xmit (hiNibble byte ||| s.params.mode rs), .xmit (loNibble byte ||| s.params.mode rs)], ?_, ?_, ?_⟩
      · simp only [perform, hww]
      · simp only [runStmts, runStmt, write, hww, andThen_done_right]
      · simp [Stmt.maxSteps]
    | w8 =>
      refine .inr ⟨[.xmit (byte ||| s.params.mode rs)], ?_, ?_, ?_⟩
      · simp only [perform, hww]
      · simp only [runStmts, runStmt, write, hww, andThen_done_right]
      · simp [Stmt.maxSteps]

/-! ### `CFG` and the parameters (10_state.md R22) -/

theorem perform_frame {x : Stmt} {s t : State} (h : perform x s = .next t) : t.cfg = s.cfg ∧ t.params = s.params := by
  obtain hrun | ⟨ys, henter, -, -⟩ := perform_cases x s
  · rw [hrun] at h
    cases hx : runStmt x s with
    | done u =>
      rw [hx] at h; cases h
      have hext : Extends s t := runStmt_extends (.inl hx)
      exact ⟨hext.cfg, hext.params⟩
    | aborted u e =>
      rw [hx] at h; cases h
      have hext : Extends s u := runStmt_extends (.inr ⟨e, hx⟩)
      exact ⟨hext.cfg, hext.params⟩
    | hung => rw [hx] at h; cases h
  · rw [henter] at h; cases h
    exact ⟨rfl, rfl⟩

theorem step_frame {s t : State} (h : step s = .next t) : t.cfg = s.cfg ∧ t.params = s.params := by
  cases htake : take s with
  | waiting =>
    simp only [step, htake] at h; cases h
    exact ⟨rfl, rfl⟩
  | reserved why => simp only [step, htake] at h; cases h
  | resume rest =>
    simp only [step, htake] at h
    obtain ⟨u, r, hext, rfl⟩ := complete_next h
    exact ⟨hext.cfg, hext.params⟩
  | instr i u =>
    simp only [step, htake] at h
    obtain ⟨-, later, rfl⟩ := take_instr htake
    obtain ⟨hparams, hcfg, -⟩ := exec_frame h
    exact ⟨hcfg, hparams⟩

theorem microStep_frame {s t : State} (h : microStep s = .next t) : t.cfg = s.cfg ∧ t.params = s.params := by
  cases htake : take s with
  | waiting =>
    simp only [microStep, htake] at h; cases h
    exact ⟨rfl, rfl⟩
  | reserved why => simp only [microStep, htake] at h; cases h
  | resume rest =>
    cases rest with
    | nil =>
      simp only [microStep, htake] at h; cases h
      exact ⟨rfl, rfl⟩
    | cons x xs =>
      simp only [microStep, htake] at h
      exact perform_frame (s := { s with seq := .running xs }) h
  | instr i u =>
    obtain ⟨-, later, rfl⟩ := take_instr htake
    simp only [microStep, htake] at h
    split at h <;> cases h
    exact ⟨rfl, rfl⟩

/-- Settles O27: at reset by definition, and by the frame of the step and of the micro-step. -/
theorem configurationNeverChanges : Obligations.ConfigurationNeverChanges :=
  ⟨fun _ => rfl, fun _ _ => step_frame, fun _ _ => microStep_frame⟩

/-! ### Micro-steps of a running request (10_state.md R27) -/

/-- Some micro-steps from `s`, at least one, end in `o`, and `SEQ` is not idle before the last of them, in `s` included. -/
def BusyUntil (s : State) (o : Host.Outcome State Fault Refusal) : Prop :=
  ∃ n, microRun (n + 1) s = o ∧ ∀ m ≤ n, ∃ u, microRun m s = .next u ∧ u.seq ≠ .idle

theorem microRun_one (s : State) : microRun 1 s = microStep s := by
  unfold microRun
  cases microStep s <;> rfl

theorem microRun_succ {s t : State} (h : microStep s = .next t) (n : Nat) : microRun (n + 1) s = microRun n t := by
  simp only [microRun, h]

theorem busyUntil_last {s : State} {o : Host.Outcome State Fault Refusal} (hs : s.seq ≠ .idle) (h : microStep s = o) :
    BusyUntil s o := by
  refine ⟨0, (microRun_one s).trans h, fun m hm => ?_⟩
  obtain rfl := Nat.le_zero.mp hm
  exact ⟨s, rfl, hs⟩

theorem busyUntil_microStep {s t : State} {o : Host.Outcome State Fault Refusal} (hs : s.seq ≠ .idle)
    (hstep : microStep s = .next t) (h : BusyUntil t o) : BusyUntil s o := by
  obtain ⟨n, hlast, hbusy⟩ := h
  refine ⟨n + 1, (microRun_succ hstep _).trans hlast, fun m hm => ?_⟩
  cases m with
  | zero => exact ⟨s, rfl, hs⟩
  | succ m => rw [microRun_succ hstep]; exact hbusy m (Nat.le_of_succ_le_succ hm)

/-- How a request's statements end does not depend on `SEQ`. -/
theorem complete_runStmts_withSeq (xs : List Stmt) (q : Seq) (s : State) :
    complete (runStmts xs { s with seq := q }) = complete (runStmts xs s) := by
  rw [runStmts_withSeq, complete_withSeq]

/-- The micro-step that performs the next statement `x`, `SEQ` already past it in `p`: if every list nearer to its end runs to
its end busy, so does `x :: xs`. -/
theorem busyUntil_perform {s p : State} {x : Stmt} {xs : List Stmt} (hs : s.seq ≠ .idle) (hp : p.seq = .running xs)
    (hmicro : microStep s = perform x p)
    (hnearer : ∀ (ys : List Stmt) (t : State), maxSteps ys < maxSteps (x :: xs) → t.seq = .running ys →
      BusyUntil t (complete (runStmts ys t))) :
    BusyUntil s (complete (runStmts (x :: xs) p)) := by
  have hpos : 0 < x.maxSteps := maxSteps_pos x
  obtain hperform | ⟨ys, henter, hys, hless⟩ := perform_cases x p
  · rw [hperform] at hmicro
    cases hx : runStmt x p with
    | done t =>
      have hseq : t.seq = .running xs := (runStmt_extends (.inl hx)).seq.trans hp
      rw [hx] at hmicro
      rw [runStmts, hx, andThen_done]
      exact busyUntil_microStep hs hmicro (hnearer xs t (by simp [hpos]) hseq)
    | aborted t e =>
      rw [hx] at hmicro
      rw [runStmts, hx]
      exact busyUntil_last hs hmicro
    | hung =>
      rw [hx] at hmicro
      rw [runStmts, hx]
      exact busyUntil_last hs hmicro
  · have hseq : (p.enter ys).seq = .running (ys ++ xs) := by simp [hp, Seq.push]
    have hsame : complete (runStmts (x :: xs) p) = complete (runStmts (ys ++ xs) (p.enter ys)) := calc
      complete (runStmts (x :: xs) p) = complete (runStmts (ys ++ xs) p) := by rw [runStmts_append, hys, runStmts]
      _ = complete (runStmts (ys ++ xs) (p.enter ys)) := (complete_runStmts_withSeq _ _ p).symm
    rw [hsame]
    exact busyUntil_microStep hs (hmicro.trans henter) (hnearer _ _ (by simpa using hless) hseq)

/-- A running request is busy until it ends as its statements, performed at once, end: by induction on the measure of the
statements. -/
theorem busyUntil_running {s : State} {xs : List Stmt} (hs : s.seq = .running xs) :
    BusyUntil s (complete (runStmts xs s)) := by
  induction hk : maxSteps xs using Nat.strong_induction_on generalizing xs s with
  | _ k ih =>
    subst hk
    have hbusy : s.seq ≠ .idle := by simp [hs]
    have htake : take s = .resume xs := take_eq_resume.mpr hs
    cases xs with
    | nil =>
      exact busyUntil_last hbusy (by simp only [microStep, htake, runStmts, complete_done])
    | cons x xs =>
      rw [← complete_runStmts_withSeq _ (.running xs) s]
      exact busyUntil_perform hbusy rfl (by simp only [microStep, htake]) fun ys t hless ht => ih _ hless ht rfl

/-! ### The micro-steps and the step -/

/-- `n + 1` micro-steps end as the step does, and leave `SEQ` not idle in between. -/
def AgreesWithStep (s : State) (n : Nat) : Prop :=
  microRun (n + 1) s = step s ∧ ∀ m, 0 < m → m ≤ n → ∃ u, microRun m s = .next u ∧ u.seq ≠ .idle

/-- One micro-step suffices where nothing is performed in between. -/
theorem agreesWithStep_zero {s : State} (h : microStep s = step s) : AgreesWithStep s 0 :=
  ⟨(microRun_one s).trans h, fun _ hpos hle => absurd hpos (Nat.not_lt.mpr hle)⟩

/-- A first micro-step that makes the encoder busy until the step's outcome. -/
theorem agreesWithStep_of_accepted {s t : State} (hmicro : microStep s = .next t) (h : BusyUntil t (step s)) :
    ∃ n, AgreesWithStep s n := by
  obtain ⟨n, hlast, hbusy⟩ := h
  refine ⟨n + 1, (microRun_succ hmicro _).trans hlast, fun m hpos hle => ?_⟩
  obtain ⟨m, rfl⟩ := Nat.exists_eq_succ_of_ne_zero (Nat.ne_of_gt hpos)
  rw [microRun_succ hmicro]
  exact hbusy m (Nat.le_of_succ_le_succ hle)

/-- Settles O35: a running request by `busyUntil_running`; an idle encoder accepts a request in one micro-step and then runs
it, or waits or refuses in one. -/
theorem microStepsAgreeWithTheAtomicStep : Obligations.MicroStepsAgreeWithTheAtomicStep := by
  intro s
  cases htake : take s with
  | waiting => exact ⟨0, agreesWithStep_zero (by simp only [microStep, step, htake])⟩
  | reserved why => exact ⟨0, agreesWithStep_zero (by simp only [microStep, step, htake])⟩
  | resume rest =>
    have hstep : step s = complete (runStmts rest s) := by simp only [step, htake]
    obtain ⟨n, hlast, hbusy⟩ := busyUntil_running (take_eq_resume.mp htake)
    exact ⟨n, hlast.trans hstep.symm, fun m _ hle => hbusy m hle⟩
  | instr i t =>
    have hidle : t.seq = .idle := by
      obtain ⟨hs, later, rfl⟩ := take_instr htake
      exact hs
    have hstep : step s = exec i t := by simp only [step, htake]
    rw [exec_of_idle hidle] at hstep
    by_cases hwf : i.wf t.params.textMax = true
    · rw [if_pos hwf] at hstep
      have hmicro : microStep s = .next { t with seq := .running (bodyOf t.params i) } := by
        simp only [microStep, htake, hwf, if_true]
      refine agreesWithStep_of_accepted hmicro ?_
      rw [hstep, ← complete_runStmts_withSeq _ (.running (bodyOf t.params i)) t]
      exact busyUntil_running rfl
    · rw [if_neg hwf] at hstep
      have hmicro : microStep s = .refused .textTooLong := by
        simp only [microStep, htake]
        exact if_neg hwf
      exact ⟨0, agreesWithStep_zero (hmicro.trans hstep.symm)⟩

end Sys2Proof.Machine
end

section
/-! PROOF. The family 20_memory.md: the bus write (R40), the order of the nibbles (R44), what a step adds to the trace
and to the responses and takes from the port (R51, R53), and which request it runs (R54). -/

namespace Sys2Proof.Machine

/-! ### The bus write (20_memory.md R40, 44_pipeline.md R147) -/

/-- Settles O15: `BUSW(v)` is `BusPort` of `v` with the overlay on it, and `BusPort` ends as the bus answers. -/
theorem busWriteCarriesTheBacklightOverlay : Obligations.BusWriteCarriesTheBacklightOverlay := by
  intro s v
  exact ⟨fun hok => busPort_ok hok, fun e hfail => busPort_fail hfail, fun hsilent => busPort_silent hsilent⟩

/-! ### Bits 7 to 4 of the bus bytes (20_memory.md R44) -/

/-- R8 (b), read in bits 7 to 4: an overlay bit puts nothing there. -/
theorem highBits_overlayBit {p : Params} (hw : p.wf = true) {b : Byte} (hb : b ∈ p.overlayBits) :
    b.extractLsb' 4 4 = 0#4 := by
  obtain rfl | rfl | rfl | rfl := (wf_overlays hw).1 b hb <;> rfl

theorem highBits_overlay {p : Params} (hw : p.wf = true) (bl : Bool) : (p.overlay bl).extractLsb' 4 4 = 0#4 := by
  cases bl with
  | false => simp [Params.overlay]
  | true => exact highBits_overlayBit hw (b := p.blBit) (by simp [Params.overlayBits])

theorem highBits_mode {p : Params} (hw : p.wf = true) (rs : Rs) : (p.mode rs).extractLsb' 4 4 = 0#4 := by
  cases rs with
  | cmd => simp [Params.mode]
  | data => exact highBits_overlayBit hw (b := p.rsBit) (by simp [Params.overlayBits])

/-- The complement of a byte, in bits 7 to 4 (the library's lemma stops short of the last bit). -/
theorem highBits_not (b : Byte) : (~~~b).extractLsb' 4 4 = ~~~b.extractLsb' 4 4 := by
  revert b; decide

/-- Under R8 both bytes of a strobe carry bits 7 to 4 of the strobed value unchanged. -/
theorem highBits_strobe {p : Params} (hw : p.wf = true) (bl : Bool) (v : Byte) :
    ((v ||| p.enBit) ||| p.overlay bl).extractLsb' 4 4 = v.extractLsb' 4 4 ∧
      ((v &&& ~~~p.enBit) ||| p.overlay bl).extractLsb' 4 4 = v.extractLsb' 4 4 := by
  have hen : p.enBit.extractLsb' 4 4 = 0#4 := highBits_overlayBit hw (by simp [Params.overlayBits])
  have hbl : (p.overlay bl).extractLsb' 4 4 = 0#4 := highBits_overlay hw bl
  have hnot : (~~~p.enBit).extractLsb' 4 4 = BitVec.allOnes 4 := by rw [highBits_not, hen]; rfl
  constructor
  · simp [BitVec.extractLsb'_or, hen, hbl]
  · simp only [BitVec.extractLsb'_or, BitVec.extractLsb'_and, hnot, hbl, BitVec.and_allOnes, BitVec.or_zero]

/-- R75: bits 7 to 4 of `hi(b)` and of `lo(b)` are the two halves of `b`. -/
theorem highBits_nibble (b : Byte) :
    (hiNibble b).extractLsb' 4 4 = b.extractLsb' 4 4 ∧ (loNibble b).extractLsb' 4 4 = b.extractLsb' 0 4 := by
  revert b; decide

/-- A nibble with the mode on it carries the nibble alone in bits 7 to 4. -/
theorem highBits_or_mode {p : Params} (hw : p.wf = true) (d : Byte) (rs : Rs) :
    (d ||| p.mode rs).extractLsb' 4 4 = d.extractLsb' 4 4 := by
  simp [BitVec.extractLsb'_or, highBits_mode hw]

/-- In 4-bit word width the four bus bytes of one byte carry, in bits 7 to 4, its upper half twice and then its lower half
twice. -/
theorem highBits_byte_w4 {p : Params} (hw : p.wf = true) (bl : Bool) (byte : Byte) (rs : Rs) :
    ∃ u₁ d₁ u₂ d₂, busBytes (byteTrace p .w4 bl byte rs) = [u₁, d₁, u₂, d₂] ∧
      u₁.extractLsb' 4 4 = byte.extractLsb' 4 4 ∧ d₁.extractLsb' 4 4 = byte.extractLsb' 4 4 ∧
      u₂.extractLsb' 4 4 = byte.extractLsb' 0 4 ∧ d₂.extractLsb' 4 4 = byte.extractLsb' 0 4 := by
  obtain ⟨hhi, hlo⟩ := highBits_nibble byte
  obtain ⟨hup₁, hdown₁⟩ := highBits_strobe hw bl (hiNibble byte ||| p.mode rs)
  obtain ⟨hup₂, hdown₂⟩ := highBits_strobe hw bl (loNibble byte ||| p.mode rs)
  rw [highBits_or_mode hw, hhi] at hup₁ hdown₁
  rw [highBits_or_mode hw, hlo] at hup₂ hdown₂
  exact ⟨_, _, _, _, rfl, hup₁, hdown₁, hup₂, hdown₂⟩

/-- Settles O17: the acknowledged `WRITE` answers a next state, and its four bytes are those of `byteTrace`. -/
theorem highNibbleTravelsFirst : Obligations.HighNibbleTravelsFirst := by
  intro s byte rs hw hidle hww hbus
  have htrace : instrTrace (.write byte rs) (s.assign (.write byte rs)) = byteTrace s.params .w4 s.bl byte rs := by
    simp [State.sends, blAfter, hww]
  have hack : Acknowledges s.bus (instrTrace (.write byte rs) (s.assign (.write byte rs))) := by
    rw [htrace, Acknowledges, writeCount_byte]
    exact hbus
  obtain ⟨u₁, d₁, u₂, d₂, hbytes, hhigh⟩ := highBits_byte_w4 hw s.bl byte rs
  refine ⟨_, u₁, d₁, u₂, d₂, exec_ok ⟨hidle, rfl⟩ hack, ?_, hhigh⟩
  rw [State.afterOk, assign_trace, busBytes_append, htrace, hbytes]

/-! ### What a step adds, and what it takes from the port (20_memory.md R51, R53) -/

/-- A step in the middle of a request finishes the request. -/
theorem step_of_running {s : State} {xs : List Stmt} (hs : s.seq = .running xs) : step s = complete (runStmts xs s) := by
  simp only [step, take_eq_resume.mpr hs]

/-- An instruction adds to the trace and to the responses. -/
theorem exec_appends {i : Instr} {s t : State} (h : exec i s = .next t) :
    s.trace <+: t.trace ∧ s.responses <+: t.responses := by
  obtain ⟨evs, htrace, ⟨hresp, -⟩ | ⟨e, before, v, hresp, -⟩⟩ := exec_events h <;>
    exact ⟨⟨_, htrace.symm⟩, ⟨_, hresp.symm⟩⟩

/-- The end of a running request adds to the trace and to the responses, and leaves the port alone. -/
theorem complete_appends {xs : List Stmt} {s t : State} (h : complete (runStmts xs s) = .next t) :
    s.trace <+: t.trace ∧ s.responses <+: t.responses ∧ t.port = s.port := by
  obtain ⟨u, r, hext, rfl⟩ := complete_next h
  obtain ⟨evs, htrace, -⟩ := hext.trace
  exact ⟨⟨evs, htrace.symm⟩, ⟨[r], rfl⟩, hext.port⟩

/-- Settles O51: a step finishes the request in progress, waits, or runs the first instruction in the port. -/
theorem stepsOnlyAppend : Obligations.StepsOnlyAppend := by
  intro s t h
  cases hseq : s.seq with
  | running xs =>
    rw [step_of_running hseq] at h
    obtain ⟨htrace, hresp, hport⟩ := complete_appends h
    exact ⟨htrace, hresp, hport ▸ List.suffix_refl _⟩
  | idle =>
    obtain ⟨-, rfl⟩ | ⟨item, later, i, hport, -, hexec⟩ := step_idle_cases hseq h
    · exact ⟨List.prefix_refl _, List.prefix_refl _, List.suffix_refl _⟩
    · obtain ⟨htrace, hresp⟩ := exec_appends hexec
      obtain ⟨-, -, hlater, -⟩ := exec_frame hexec
      refine ⟨htrace, hresp, ?_⟩
      rw [hlater, hport]
      exact List.suffix_cons item later

/-! ### Which request a step runs (20_memory.md R54) -/

/-- An idle encoder takes the first item of the port. -/
theorem step_of_port {s : State} {item : PortItem} {later : List PortItem} {i : Instr} (hs : s.seq = .idle)
    (hport : s.port = item :: later) (hitem : decodeItem item = .instr i) : step s = exec i { s with port := later } := by
  simp only [step, take, hs, hport, hitem]

/-- A table word that decodes is an item that decodes. -/
theorem decodeTableWord_eq_some {nbits w : Nat} {i : Instr} (h : decodeTableWord nbits w = some i) :
    ∃ item, tableItem nbits w = some item ∧ decodeItem item = .instr i := by
  cases hitem : tableItem nbits w with
  | none => simp [decodeTableWord, hitem] at h
  | some item =>
    refine ⟨item, rfl, ?_⟩
    cases hdec : decodeItem item with
    | instr j => simpa [decodeTableWord, hitem, hdec, Decoded.toOption] using h
    | rejected why => simp [decodeTableWord, hitem, hdec, Decoded.toOption] at h

/-- Settles O33: presenting a table word makes its item the first one in the port of an idle encoder. -/
theorem stepRunsTheDecodedRequest : Obligations.StepRunsTheDecodedRequest := by
  refine ⟨fun s item later i hs hport hitem => step_of_port hs hport hitem, fun s nbits w i h => ?_⟩
  obtain ⟨item, htable, hitem⟩ := decodeTableWord_eq_some h
  have hfetch : s.withFetchWord nbits w = s.present item := by
    simp only [State.withFetchWord, State.presentTableWord, htable]
  rw [hfetch]
  exact step_of_port (s := s.present item) rfl rfl hitem

end Sys2Proof.Machine
end

section
/-! PROOF. The family 30_encoding.md: the request words (R62, R78), the command bytes (R64 to R71, R79) and their default
values, the rows of the opcode table, and the assembler (R82, R83). -/

namespace Sys2Proof.Machine

/-! ### Operand fields -/

@[simp] theorem dirOfBit_toBit (dir : Dir) : Dir.ofBit dir.toBit = dir := by cases dir <;> rfl
@[simp] theorem shiftOfBit_toBit (sh : Shift) : Shift.ofBit sh.toBit = sh := by cases sh <;> rfl
@[simp] theorem rsOfBit_toBit (rs : Rs) : Rs.ofBit rs.toBit = rs := by cases rs <;> rfl
@[simp] theorem opcodeOfBits_toBits (k : Opcode) : Opcode.ofBits k.toBits = k := by cases k <;> rfl
@[simp] theorem dirToBit_ofBit (d : Bool) : (Dir.ofBit d).toBit = d := by cases d <;> rfl
@[simp] theorem shiftToBit_ofBit (s : Bool) : (Shift.ofBit s).toBit = s := by cases s <;> rfl
@[simp] theorem rsToBit_ofBit (d : Bool) : (Rs.ofBit d).toBit = d := by cases d <;> rfl
@[simp] theorem opcodeToBits_ofBits (k : BitVec 3) : (Opcode.ofBits k).toBits = k := by revert k; decide

/-! A one-bit operand is bit 0 of its byte, and the byte's other bits are 0. -/

@[simp] theorem bitByte_high (on : Bool) : bitByte on &&& 0xFE#8 = 0#8 := by cases on <;> rfl
@[simp] theorem bitByte_bit (on : Bool) : (bitByte on)[0] = on := by cases on <;> rfl

/-- The byte `b` of `ENTRY` (R62): direction in bit 1, shift in bit 0. -/
def entryByte (d s : Bool) : Byte := (bitByte d <<< 1) ||| bitByte s

@[simp] theorem entryByte_high (d s : Bool) : entryByte d s &&& 0xFC#8 = 0#8 := by cases d <;> cases s <;> rfl
@[simp] theorem entryByte_dir (d s : Bool) : (entryByte d s)[1] = d := by cases d <;> cases s <;> rfl
@[simp] theorem entryByte_shift (d s : Bool) : (entryByte d s)[0] = s := by cases d <;> cases s <;> rfl

/-! The byte `a` of `CMD` (R62): the opcode in bits 2 to 0. -/

@[simp] theorem opcodeByte_high (k : BitVec 3) : (0#5 ++ k) &&& 0xF8#8 = 0#8 := by revert k; decide
@[simp] theorem opcodeByte_opcode (k : BitVec 3) : (0#5 ++ k).extractLsb' 0 3 = k := by revert k; decide

/-! A byte whose must-be-zero bits are 0 is the byte of the operand it holds. -/

theorem bitByte_of_high {b : Byte} (h : b &&& 0xFE#8 = 0#8) : bitByte (b.getLsbD 0) = b := by
  revert b; decide

theorem entryByte_of_high {b : Byte} (h : b &&& 0xFC#8 = 0#8) : entryByte (b.getLsbD 1) (b.getLsbD 0) = b := by
  revert b; decide

theorem opcodeByte_of_high {a : Byte} (h : a &&& 0xF8#8 = 0#8) : 0#5 ++ a.extractLsb' 0 3 = a := by
  revert a; decide

/-! ### Command bytes and their decoder (R64 to R71, R79) -/

/-- A command byte that decodes is the encoding of its instruction. -/
theorem encode_of_decodeCommandByte {b : Byte} {i : Instr} (h : decodeCommandByte b = .instr i) :
    encode i = .commandByte b := by
  have hbytes : ∀ b : Byte, ∀ i ∈ (decodeCommandByte b).toOption, encode i = .commandByte b := by decide
  exact hbytes b i (by simp [h, Decoded.toOption])

/-- A byte in one of the eight command rows decodes, and no other does. -/
theorem commandByte_inTable_iff (b : Byte) :
    (PortItem.commandByte b).inTable = true ↔ ∃ i, decodeCommandByte b = .instr i := by
  have hbytes : ∀ b : Byte, (PortItem.commandByte b).inTable = (decodeCommandByte b).toOption.isSome := by decide
  rw [hbytes]
  cases decodeCommandByte b <;> simp [Decoded.toOption]

/-! ### Decode of encode (R62, R64) -/

/-- Settles O37: a request word's fields are read back (`reqOp_reqWord` and its two neighbours), and so is every operand in them;
the operands of a command byte are few and are gone through one by one. -/
theorem decodeOfEncodeIsTheInstruction : Obligations.DecodeOfEncodeIsTheInstruction := by
  intro i
  cases i with
  | init => rfl
  | clear => rfl
  | entry dir sh =>
    change decodeRequest (reqWord 2 0 (entryByte dir.toBit sh.toBit)) [] = _
    simp [decodeRequest]
  | power on => simp [encode, decodeItem, decodeRequest]
  | cursor on => simp [encode, decodeItem, decodeRequest]
  | blink on => simp [encode, decodeItem, decodeRequest]
  | backlight on => simp [encode, decodeItem, decodeRequest]
  | text row col chars => simp [encode, decodeItem, decodeRequest]
  | cmd k data => simp [encode, decodeItem, decodeRequest]
  | write byte rs => simp [encode, decodeItem, decodeRequest]
  | clearDisplay => rfl
  | returnHome => rfl
  | entryModeSet d s => revert d s; decide
  | displayControl p c b => revert p c b; decide
  | cursorShift s r x => revert s r x; decide
  | functionSet w l m x => revert w l m x; decide
  | setCgramAddr a => revert a; decide
  | setDdramAddr a => revert a; decide

/-! ### Encode of decode (R62, R64) -/

/-- A condition that decides between an instruction and a rejection. -/
@[simp] theorem ite_rejected_eq_instr {c : Prop} [Decidable c] {i j : Instr} {why : DecodeReject} :
    (if c then Decoded.instr i else .rejected why) = .instr j ↔ c ∧ i = j := by
  split <;> simp [*]

/-- The item with these fields of its word. -/
theorem word_of_fields {w : ReqWord} {text : List Byte} {op : BitVec 4} {a b : Byte}
    (hop : (reqOp w).toNat = op.toNat) (ha : reqA w = a) (hb : reqB w = b) :
    PortItem.word (reqWord op a b) text = .word w text := by
  rw [← BitVec.eq_of_toNat_eq hop, ← ha, ← hb, reqWord_fields]

/-- A request word that decodes is the encoding of its instruction, if no word but `TEXT` comes with a text. -/
theorem encode_of_decodeRequest {w : ReqWord} {text : List Byte} {i : Instr}
    (htext : (reqOp w).toNat ≠ 7 → text = []) (h : decodeRequest w text = .instr i) : encode i = .word w text := by
  unfold decodeRequest at h
  split at h
  case h_8 hop =>
    cases h
    exact word_of_fields (op := 7) hop rfl rfl
  case h_11 => cases h
  all_goals
    obtain rfl := htext (by omega)
    obtain ⟨hzero, rfl⟩ := ite_rejected_eq_instr.mp h
  case h_1 hop => exact word_of_fields (op := 0) hop hzero.1 hzero.2
  case h_2 hop => exact word_of_fields (op := 1) hop hzero.1 hzero.2
  case h_3 hop =>
    refine word_of_fields (op := 2) hop hzero.1 ?_
    simp only [dirToBit_ofBit, shiftToBit_ofBit]
    exact (entryByte_of_high hzero.2).symm
  case h_4 hop => exact word_of_fields (op := 3) hop hzero.1 (bitByte_of_high hzero.2).symm
  case h_5 hop => exact word_of_fields (op := 4) hop hzero.1 (bitByte_of_high hzero.2).symm
  case h_6 hop => exact word_of_fields (op := 5) hop hzero.1 (bitByte_of_high hzero.2).symm
  case h_7 hop => exact word_of_fields (op := 6) hop hzero.1 (bitByte_of_high hzero.2).symm
  case h_9 hop =>
    refine word_of_fields (op := 8) hop ?_ rfl
    rw [opcodeToBits_ofBits, opcodeByte_of_high hzero]
  case h_10 hop =>
    refine word_of_fields (op := 9) hop ?_ rfl
    rw [rsToBit_ofBit, bitByte_of_high hzero]

/-- Settles O38: in either format what decodes is what its instruction encodes to. -/
theorem encodeOfDecodeIsTheWord : Obligations.EncodeOfDecodeIsTheWord := by
  intro item i hwf h
  cases item with
  | word w text =>
    refine encode_of_decodeRequest (fun hop => ?_) h
    have hstray : text.isEmpty = true ∨ reqOp w = 7#4 := by simpa [PortItem.wf, reqOp] using hwf
    exact List.isEmpty_iff.mp (hstray.resolve_right fun h7 => hop (by rw [h7]; rfl))
  | commandByte b => exact encode_of_decodeCommandByte h

/-! ### The rows of the opcode table (R62, R65 to R71, R78) -/

/-- The ten request rows, mask and pattern cut into the three fields. -/
theorem requestRows_fields : requestRows =
    [⟨reqWord 0xF 0xFF 0xFF, reqWord 0 0 0⟩, ⟨reqWord 0xF 0xFF 0xFF, reqWord 1 0 0⟩,
      ⟨reqWord 0xF 0xFF 0xFC, reqWord 2 0 0⟩, ⟨reqWord 0xF 0xFF 0xFE, reqWord 3 0 0⟩,
      ⟨reqWord 0xF 0xFF 0xFE, reqWord 4 0 0⟩, ⟨reqWord 0xF 0xFF 0xFE, reqWord 5 0 0⟩,
      ⟨reqWord 0xF 0xFF 0xFE, reqWord 6 0 0⟩, ⟨reqWord 0xF 0 0, reqWord 7 0 0⟩,
      ⟨reqWord 0xF 0xF8 0, reqWord 8 0 0⟩, ⟨reqWord 0xF 0xFE 0, reqWord 9 0 0⟩] := by decide

/-- A request word lies in the table exactly when its `op` is one of the ten and that row's must-be-zero bits are 0. -/
theorem word_inTable_iff (w : ReqWord) (text : List Byte) : (PortItem.word w text).inTable = true ↔
    ((reqOp w).toNat = 0 ∧ reqA w = 0 ∧ reqB w = 0) ∨ ((reqOp w).toNat = 1 ∧ reqA w = 0 ∧ reqB w = 0) ∨
    ((reqOp w).toNat = 2 ∧ reqA w = 0 ∧ reqB w &&& 0xFC = 0) ∨
    ((reqOp w).toNat = 3 ∧ reqA w = 0 ∧ reqB w &&& 0xFE = 0) ∨
    ((reqOp w).toNat = 4 ∧ reqA w = 0 ∧ reqB w &&& 0xFE = 0) ∨
    ((reqOp w).toNat = 5 ∧ reqA w = 0 ∧ reqB w &&& 0xFE = 0) ∨
    ((reqOp w).toNat = 6 ∧ reqA w = 0 ∧ reqB w &&& 0xFE = 0) ∨ (reqOp w).toNat = 7 ∨
    ((reqOp w).toNat = 8 ∧ reqA w &&& 0xF8 = 0) ∨ ((reqOp w).toNat = 9 ∧ reqA w &&& 0xFE = 0) := by
  have hfull (a : Byte) : a &&& 0xFF#8 = a := BitVec.and_allOnes
  have hop (op : BitVec 4) : reqOp w &&& 0xF#4 = op ↔ (reqOp w).toNat = op.toNat := by
    rw [BitVec.toNat_inj]; exact iff_of_eq (congrArg (· = op) BitVec.and_allOnes)
  conv_lhs => rw [← reqWord_fields w]
  simp [PortItem.inTable, requestRows_fields, row_holds, hop, hfull, and_assoc]

/-- A request word that lies in the table decodes, and no other does: the decoder's own checks are the rows'. -/
theorem requestWord_inTable_iff (w : ReqWord) (text : List Byte) :
    (PortItem.word w text).inTable = true ↔ ∃ i, decodeRequest w text = .instr i := by
  rw [word_inTable_iff]
  unfold decodeRequest
  split
  case h_11 =>
    simp only [imp_false] at *
    simp [*]
  all_goals simp [*]

/-- In either format the table is what the decoder accepts. -/
theorem inTable_iff_decodes (item : PortItem) : item.inTable = true ↔ ∃ i, decodeItem item = .instr i := by
  cases item with
  | word w text => exact requestWord_inTable_iff w text
  | commandByte b => exact commandByte_inTable_iff b

/-- Two rows that ask different bits of a common position share no word. -/
theorem rows_disjoint {n : Nat} {r q : Row n} (h : r.pattern &&& q.mask ≠ q.pattern &&& r.mask) (w : BitVec n) :
    ¬ (r.holds w = true ∧ q.holds w = true) := by
  rintro ⟨hr, hq⟩
  simp only [Row.holds, beq_iff_eq] at hr hq
  refine h ?_
  rw [← hr, ← hq, BitVec.and_assoc, BitVec.and_assoc, BitVec.and_comm r.mask]

/-- Settles O39: the decoder's checks are the rows', and any two rows differ in a bit that both fix. -/
theorem decoderAcceptsExactlyTheTable : Obligations.DecoderAcceptsExactlyTheTable := by
  have hrequests : requestRows.Pairwise fun r q => r.pattern &&& q.mask ≠ q.pattern &&& r.mask := by decide
  have hcommands : commandRows.Pairwise fun r q => r.pattern &&& q.mask ≠ q.pattern &&& r.mask := by decide
  exact ⟨inTable_iff_decodes, hrequests.imp rows_disjoint, hcommands.imp rows_disjoint⟩

/-- An item outside the table is rejected, by a name that the item alone decides. -/
theorem rejected_of_not_inTable {item : PortItem} (h : item.inTable = false) : ∃ why, decodeItem item = .rejected why := by
  cases hitem : decodeItem item with
  | rejected why => exact ⟨why, rfl⟩
  | instr i => exact absurd ((inTable_iff_decodes item).mpr ⟨i, hitem⟩) (by simp [h])

/-- An idle encoder refuses what the decoder rejects. -/
theorem step_of_rejected {s : State} {item : PortItem} {later : List PortItem} {why : DecodeReject} (hs : s.seq = .idle)
    (hport : s.port = item :: later) (hitem : decodeItem item = .rejected why) : step s = .refused (.reserved why) := by
  simp only [step, take, hs, hport, hitem]

/-- From `0xA0000` on, `op` is `0xA` or more. -/
theorem reqOp_of_high {w : ReqWord} (h : 0xA0000#20 ≤ w) : 10 ≤ (reqOp w).toNat := by
  have hw : 655360 ≤ w.toNat := h
  have hlt := w.isLt
  simp only [reqOp, BitVec.extractLsb'_toNat, Nat.shiftRight_eq_div_pow]
  omega

theorem not_inTable_of_high {w : ReqWord} (text : List Byte) (h : 0xA0000#20 ≤ w) :
    (PortItem.word w text).inTable = false := by
  have hop := reqOp_of_high h
  rw [Bool.eq_false_iff, Ne, word_inTable_iff]
  omega

/-- Settles O36: what no row holds the decoder rejects, and the step refuses; no row has an `op` of `0xA` or more. -/
theorem reservedWordsAreRefused : Obligations.ReservedWordsAreRefused := by
  refine ⟨fun w text hrow => ?_, fun w text hw => not_inTable_of_high text hw⟩
  obtain ⟨why, hitem⟩ := rejected_of_not_inTable hrow
  exact ⟨why, fun s later hs hport => step_of_rejected hs hport hitem⟩

/-! ### What a command byte sends (R64 to R71; log entry 1) -/

/-- A command byte's instruction accepts every operand and assigns nothing. -/
theorem commandByte_plain {i : Instr} {b : Byte} (h : encode i = .commandByte b) (s : State) :
    i.wf s.params.textMax = true ∧ s.assign i = s := by
  cases i <;> cases h <;> exact ⟨rfl, rfl⟩

/-- A command byte is sent as a command, whatever the bus answers. -/
theorem performs_commandByte {i : Instr} {s : State} {b c : Byte} (h : encode i = .commandByte b) (hs : s.seq = .idle)
    (hc : instrTrace i s = s.sends c .cmd) : Performs i s s (byteTrace s.params s.cfg.ww s.bl c .cmd) := by
  obtain ⟨hwf, hassign⟩ := commandByte_plain h s
  have hperf := performs_instr ⟨hs, hwf⟩
  rwa [hassign, hc] at hperf

/-- The fragments of an entry-mode byte (R66). -/
theorem emPayload_ofBit (p : Params) (d sh : Bool) : p.emPayload (Dir.ofBit d) (Shift.ofBit sh) =
    (if d then p.emLeft else p.emRight) ||| (if sh then p.shOn else p.shOff) := by
  cases d <;> cases sh <;> rfl

/-- The fragments of a function-set byte (R69). -/
theorem fsPayload_announced (p : Params) (w l m : Bool) : p.fsPayload (announced w l m) =
    (if w then p.fsW8 else p.fsW4) ||| (if l then p.fsL2 else p.fsL1) ||| (if m then p.fsM5x10 else p.fsM5x8) := by
  cases w <;> cases l <;> cases m <;> rfl

/-- Settles O12: each of the eight sends one byte, its base OR its payload. -/
theorem commandBytesAreSentAsCommands : Obligations.CommandBytesAreSentAsCommands := by
  intro s d sh pw c b sc rl w l m x a6 a7 hs
  simp only [List.forall_mem_cons, List.not_mem_nil, false_implies, implies_true, and_true]
  refine ⟨performs_commandByte rfl hs (instrTrace_clearDisplay s), performs_commandByte rfl hs (instrTrace_returnHome s),
    performs_commandByte rfl hs ?_, performs_commandByte rfl hs (instrTrace_displayControl s pw c b),
    performs_commandByte rfl hs (instrTrace_cursorShift s sc rl x), performs_commandByte rfl hs ?_,
    performs_commandByte rfl hs (instrTrace_setCgramAddr s a6), performs_commandByte rfl hs (instrTrace_setDdramAddr s a7)⟩
  · rw [instrTrace_entryModeSet, emPayload_ofBit]; rfl
  · rw [instrTrace_functionSet, fsPayload_announced]; rfl

/-! ### The command bytes with the default encoding (R64, R66, R67, R69, R92)

Bytes are built as the default parameters build them, whatever the times, the straps and the reset values are. -/

theorem cmdByte_eq_standard {p : Params} (hp : p.standardEncoding) : p.cmdByte = Params.standard.cmdByte := by
  funext k data; rw [hp]; cases k <;> rfl

theorem emPayload_eq_standard {p : Params} (hp : p.standardEncoding) : p.emPayload = Params.standard.emPayload := by
  rw [hp]; rfl

theorem dcPayload_eq_standard {p : Params} (hp : p.standardEncoding) : p.dcPayload = Params.standard.dcPayload := by
  rw [hp]; rfl

theorem fsPayload_eq_standard {p : Params} (hp : p.standardEncoding) : p.fsPayload = Params.standard.fsPayload := by
  rw [hp]; rfl

/-- R66: `0b000001ds`. -/
theorem entryModeSet_standard {p : Params} (hp : p.standardEncoding) (d s : Bool) :
    p.cmdByte .entryModeSet (p.emPayload (Dir.ofBit d) (Shift.ofBit s)) =
      0b000001#6 ++ BitVec.ofBool d ++ BitVec.ofBool s := by
  rw [cmdByte_eq_standard hp, emPayload_eq_standard hp]
  revert d s; decide

/-- R67: `0b00001pcb`. -/
theorem displayControl_standard {p : Params} (hp : p.standardEncoding) (pw c b : Bool) :
    p.cmdByte .displayControl (p.dcPayload ⟨pw, c, b⟩) =
      0b00001#5 ++ BitVec.ofBool pw ++ BitVec.ofBool c ++ BitVec.ofBool b := by
  rw [cmdByte_eq_standard hp, dcPayload_eq_standard hp]
  revert pw c b; decide

/-- R69: `0b001wlmxx`. -/
theorem functionSet_standard {p : Params} (hp : p.standardEncoding) (w l m : Bool) (x : BitVec 2) :
    p.cmdByte .functionSet (p.fsPayload (announced w l m) ||| x.setWidth 8) =
      0b001#3 ++ BitVec.ofBool w ++ BitVec.ofBool l ++ BitVec.ofBool m ++ x := by
  rw [cmdByte_eq_standard hp, fsPayload_eq_standard hp]
  revert w l m x; decide

/-- Every `CFG` is announced by the three fields of a function-set byte. -/
theorem announced_fields (c : Cfg) :
    announced (decide (c.ww = .w8)) (decide (c.lc = .l2)) (decide (c.ms = .m5x10)) = c := by
  obtain ⟨ww, lc, ms⟩ := c
  cases ww <;> cases lc <;> cases ms <;> rfl

/-- R92: `CFG` can be read off its payload. -/
theorem announced_fsPayload {p : Params} (hp : p.standardEncoding) (c : Cfg) :
    announced ((p.fsPayload c).getLsbD 4) ((p.fsPayload c).getLsbD 3) ((p.fsPayload c).getLsbD 2) = c := by
  rw [fsPayload_eq_standard hp]
  obtain ⟨ww, lc, ms⟩ := c
  cases ww <;> cases lc <;> cases ms <;> rfl

/-- Settles O43: the three formats above; R92's order of the fields does not matter to `|||`, and no field is lost. -/
theorem commandByteFormats : Obligations.CommandByteFormats := by
  intro p hp
  refine ⟨⟨entryModeSet_standard hp false false, entryModeSet_standard hp false true,
    entryModeSet_standard hp true false, entryModeSet_standard hp true true⟩,
    fun d => displayControl_standard hp d.power d.cursor d.blink, fun c => ?_, fun c => ?_, fun c c' h => ?_⟩
  · have hformat := functionSet_standard hp (decide (c.ww = .w8)) (decide (c.lc = .l2)) (decide (c.ms = .m5x10)) 0#2
    rwa [announced_fields, BitVec.setWidth_zero, BitVec.or_zero] at hformat
  · simp only [Params.fsPayload]; ac_rfl
  · rw [← announced_fsPayload hp c, ← announced_fsPayload hp c', h]

/-- With the default encoding a command byte's instruction sends the byte that encodes it. -/
theorem bodyOf_commandByte {p : Params} (hp : p.standardEncoding) {i : Instr} {b : Byte}
    (h : encode i = .commandByte b) : bodyOf p i = bodyWrite b .cmd := by
  obtain ⟨hclear, hhome, -⟩ := standard_bases hp
  cases i with
  | clearDisplay => cases h; simp only [bodyOf, bodyClearDisplay, hclear]; rfl
  | returnHome => cases h; simp only [bodyOf, bodyReturnHome, hhome]; rfl
  | entryModeSet d s => cases h; simp only [bodyOf, bodyEntryModeSet, bodyWrite, entryModeSet_standard hp]
  | displayControl pw c b => cases h; simp only [bodyOf, bodyDisplayControl, bodyWrite, displayControl_standard hp]
  | cursorShift s r x =>
    cases h
    simp only [bodyOf, bodyCursorShift, bodyWrite, cmdByte_eq_standard hp]
    revert s r x; decide
  | functionSet w l m x => cases h; simp only [bodyOf, bodyFunctionSet, bodyWrite, functionSet_standard hp]
  | setCgramAddr a =>
    cases h
    simp only [bodyOf, bodySetCgramAddr, bodyWrite, cmdByte_eq_standard hp]
    revert a; decide
  | setDdramAddr a =>
    cases h
    simp only [bodyOf, bodySetDdramAddr, bodyWrite, cmdByte_eq_standard hp]
    revert a; decide
  | _ => cases h

/-- A command byte's instruction is its micro-sequence, in any state. -/
theorem exec_commandByte {i : Instr} {b : Byte} (h : encode i = .commandByte b) (s : State) :
    exec i s = request (bodyOf s.params i) s := by
  cases i with
  | text row col chars => cases h
  | _ => rfl

/-- Settles O42: the byte encodes the instruction, and the instruction sends the byte that encodes it. -/
theorem commandByteIsSentUnchanged : Obligations.CommandByteIsSentUnchanged := by
  intro s b i hp h
  have hencode := encode_of_decodeCommandByte h
  rw [exec_commandByte hencode, bodyOf_commandByte hp hencode]
  rfl

/-! ### Sample words, and the assembler (R62, R65 to R71, R82, R83) -/

/-- Settles O40: the decoder is run on each word. -/
theorem sampleWordsDecode : Obligations.SampleWordsDecode := by
  unfold Obligations.SampleWordsDecode
  decide

/-- Settles O46: the expansions are R83's own equations; the assembler is run on each line. -/
theorem assemblerNamesRequests : Obligations.AssemblerNamesRequests :=
  ⟨fun _ => rfl, rfl, fun _ _ => rfl, fun _ => rfl, by decide⟩

end Sys2Proof.Machine
end

section
/-! PROOF. The family 40_configuration_function_set.md: the builders `FSET` (R91) and `APPLY` (R113), and the hold (R155). -/

namespace Sys2Proof.Machine

/-! ### The builders and the hold, as statements -/

/-- `FSET` (R91). -/
theorem runStmt_fset (s : State) : runStmt .fset s = runStmt (.write (fsetByte s) .cmd) s := rfl

/-- `APPLY` (R113). -/
theorem runStmt_apply (s : State) : runStmt .apply s = runStmt (.write (applyByte s) .cmd) s := rfl

/-- `DELAY` (R155): it always ends, whatever the bus answers. -/
theorem runStmt_delay (h : Hold) (s : State) : runStmt (.delay h) s = .done (s.emit (.hold h)) := rfl

/-- R91, R92: `OPB_FSET` OR one fragment for each field of `CFG`. -/
theorem fsetByte_eq (s : State) : fsetByte s =
    s.params.opbFset ||| (s.params.rawWidth s.cfg.ww ||| s.params.rawLines s.cfg.lc ||| s.params.rawMatrix s.cfg.ms) := rfl

/-- R113: `OPB_DISPCTL` OR the fragment of each flag of `DISP` that is on. -/
theorem applyByte_eq (s : State) : applyByte s = s.params.opbDispctl |||
    ((if s.disp.power then s.params.dcPower else 0) ||| (if s.disp.cursor then s.params.dcCursor else 0) |||
      (if s.disp.blink then s.params.dcBlink else 0)) := rfl

/-- Settles O16: each builder writes its byte as a command, and the byte is its base OR its fragments; `rawWidth`, `rawLines` and
`rawMatrix` are by definition the choices the statement writes out. -/
theorem buildersSendBaseOrPayload : Obligations.BuildersSendBaseOrPayload := by
  intro s
  refine ⟨?_, ?_, fun h => runStmt_delay h s⟩
  · rw [runStmt_fset, fsetByte_eq]; rfl
  · rw [runStmt_apply, applyByte_eq]

end Sys2Proof.Machine
end

section
/-! PROOF. The family 41_initialize.md: the single nibble write `NIB` (R101), and the request `INIT` (R100, R104). -/

namespace Sys2Proof.Machine

/-! ### How a plain statement ends (44_pipeline.md R152, 60_exceptions.md R175) -/

/-- Every write acknowledged: the statement's events stand in the trace, and no other state is written. -/
theorem runStmt_ok {x : Stmt} (hx : x.plain = true) {s : State} (h : Acknowledges s.bus (stmtEvents s x)) :
    runStmt x s = .done (s.played (writeCount (stmtEvents s x)) (stmtEvents s x)) := by
  rw [runStmt_eq_play hx, play_done (allTo_stmt s x) rfl h]

/-- The first failed write ends the statement there. -/
theorem runStmt_fail {x : Stmt} (hx : x.plain = true) {s : State} {n : Nat} {e : BusErr}
    (h : FailsAt s.bus n e (stmtEvents s x)) :
    runStmt x s = .aborted (s.played (n + 1) (cutAt n (stmtEvents s x))) e := by
  obtain ⟨hn, hok, hfail⟩ := h
  rw [runStmt_eq_play hx, play_aborted (allTo_stmt s x) rfl hn hok hfail]

/-! ### The single nibble write (R101) -/

/-- R76: the nibble stands in bits 7 to 4, and bits 3 to 0 are clear. -/
theorem placeNibble_eq_append (n : Nibble) : placeNibble n = n ++ 0#4 := by
  revert n; decide

/-- The bytes and holds of `NIB`, one by one: the overlays stand on the nibble, and the mode puts nothing there. -/
theorem stmtEvents_nib (s : State) (n : Nibble) : stmtEvents s (.nib n) =
    [.wrote s.params.i2cAddr (((n ++ 0#4) ||| s.params.enBit) ||| s.params.overlay s.bl), .hold .tEn,
     .wrote s.params.i2cAddr (((n ++ 0#4) &&& ~~~s.params.enBit) ||| s.params.overlay s.bl), .hold .tPost,
     .hold .tCmd] := by
  rw [← placeNibble_eq_append]; rfl

/-- Settles O14: the events of `stmtEvents_nib`, whole, cut at the first write, and cut at the second. -/
theorem nibbleIsOneStrobeThenTheCommandDelay : Obligations.NibbleIsOneStrobeThenTheCommandDelay := by
  intro s n
  have hcount : writeCount (stmtEvents s (.nib n)) = 2 := writeCount_nib _ _ n
  refine ⟨fun hok => ?_, fun e hfail => ?_, fun e hok hfail => ?_⟩
  · have hack : Acknowledges s.bus (stmtEvents s (.nib n)) := by rw [Acknowledges, hcount]; exact hok
    rw [runStmt_ok rfl hack, hcount, stmtEvents_nib]; rfl
  · have hcut : FailsAt s.bus 0 e (stmtEvents s (.nib n)) := ⟨by omega, rfl, hfail⟩
    rw [runStmt_fail rfl hcut, stmtEvents_nib]; rfl
  · have hcut : FailsAt s.bus 1 e (stmtEvents s (.nib n)) := ⟨by omega, by simp [hok], hfail⟩
    rw [runStmt_fail rfl hcut, stmtEvents_nib]; rfl

/-! ### The request `INIT` (R100, R104) -/

/-- R102: `INIT` accepts every idle encoder and assigns nothing, so whatever the bus answers it is its events performed from the
state it starts in. -/
theorem performs_init {s : State} (hs : s.seq = .idle) : Performs .init s s (instrTrace .init s) :=
  performs_instr ⟨hs, rfl⟩

/-- R100, corner case (e): four nibbles of two writes each in either word width, and four bytes. -/
theorem writeCount_init (s : State) : writeCount (instrTrace .init s) = 8 + 8 * strobesPerByte s.cfg.ww := by
  simp only [instrTrace_init, writeCount_append, writeCount_nib, writeCount_sends, writeCount_hold, writeCount_nil]
  omega

/-- Settles O1: the events are `instrTrace_init`, bracketed from the left. -/
theorem initRunsHandshakeThenCommands : Obligations.InitRunsHandshakeThenCommands := by
  refine ⟨rfl, fun s hs => ?_⟩
  intro p send evs
  have htrace : instrTrace .init s = evs := by
    simp only [instrTrace_init, evs, List.append_assoc]; rfl
  refine ⟨?_, htrace ▸ performs_init hs⟩
  rw [← htrace, writeCount_init]
  cases s.cfg.ww <;> rfl

end Sys2Proof.Machine
end

section
/-! PROOF. The family 42_state_operations.md: the setters `POWER`, `CURSOR`, `BLINK` (R110 to R115), `CLEAR` (R116), `ENTRY`
(R117), `BACKLIGHT` (R119), and the enable position a successful request leaves (R119, R145). -/

namespace Sys2Proof.Machine

/-! ### Requests that send one byte (R110 to R112, R116, R117) -/

/-- An accepted instruction whose one byte is `b` is that byte's trace, performed from the state its assignments leave. -/
theorem performs_sends {i : Instr} {s : State} {b : Byte} {rs : Rs} (h : Ready i s)
    (hb : instrTrace i (s.assign i) = (s.assign i).sends b rs) :
    Performs i s (s.assign i) (byteTrace s.params s.cfg.ww (blAfter i s.bl) b rs) := by
  have hperf := performs_instr h
  rwa [hb] at hperf

/-- Settles O2: `CLEAR` assigns nothing and its byte is `OPB_CLEAR`. -/
theorem clearSendsClearDisplay : Obligations.ClearSendsClearDisplay :=
  ⟨rfl, fun s hs => performs_sends ⟨hs, rfl⟩ (instrTrace_clear s)⟩

/-- The fragments of an entry-mode payload (R66, R117). -/
theorem emPayload_eq (p : Params) (dir : Dir) (sh : Shift) : p.emPayload dir sh =
    (if dir = .left then p.emLeft else p.emRight) ||| (if sh = .shift then p.shOn else p.shOff) := by
  cases dir <;> cases sh <;> rfl

/-- Settles O3: `ENTRY` assigns nothing and its byte is `OPB_ENTRY` OR the payload of `emPayload_eq`. -/
theorem entrySendsEntryModeSet : Obligations.EntrySendsEntryModeSet := by
  refine ⟨fun dir sh => ?_, fun s dir sh hs => ?_⟩
  · cases dir <;> cases sh <;> rfl
  · intro p payload evs
    have hperf := performs_sends ⟨hs, rfl⟩ (instrTrace_entry s dir sh)
    rwa [emPayload_eq] at hperf

/-- Settles O4: the byte is by definition `applyByte` in the state with the new flag (see `applyByte_eq`). -/
theorem powerWritesItsFlagAndApplies : Obligations.PowerWritesItsFlagAndApplies :=
  ⟨by decide, fun s on hs => performs_sends ⟨hs, rfl⟩ (instrTrace_power (s.assign (.power on)) on)⟩

/-- Settles O5: the byte is by definition `applyByte` in the state with the new flag (see `applyByte_eq`). -/
theorem cursorWritesItsFlagAndApplies : Obligations.CursorWritesItsFlagAndApplies :=
  ⟨by decide, fun s on hs => performs_sends ⟨hs, rfl⟩ (instrTrace_cursor (s.assign (.cursor on)) on)⟩

/-- Settles O6: the byte is by definition `applyByte` in the state with the new flag (see `applyByte_eq`). -/
theorem blinkWritesItsFlagAndApplies : Obligations.BlinkWritesItsFlagAndApplies :=
  ⟨by decide, fun s on hs => performs_sends ⟨hs, rfl⟩ (instrTrace_blink (s.assign (.blink on)) on)⟩

/-! ### The backlight (R119) -/

/-- `BACKLIGHT` is one bus write of the new overlay, performed with the new `BL`. -/
theorem performs_backlight {s : State} (hs : s.seq = .idle) (on : Bool) :
    Performs (.backlight on) s (s.assign (.backlight on)) [.wrote s.params.i2cAddr (s.params.overlay on)] := by
  have hperf := performs_instr (i := .backlight on) ⟨hs, rfl⟩
  rwa [instrTrace_backlight] at hperf

/-- Settles O7: of one write, the bus's next answer decides. -/
theorem backlightWritesTheOverlayAlone : Obligations.BacklightWritesTheOverlayAlone := by
  refine ⟨by decide, fun s on hs => ?_⟩
  obtain ⟨hdone, hcut⟩ := performs_backlight hs on
  exact ⟨fun hok => hdone (by simp [Acknowledges, hok]), fun e hfail => hcut 0 e ⟨Nat.zero_lt_one, rfl, hfail⟩⟩

/-! ### The enable position (R119, R145; 20_memory.md R55) -/

@[simp] theorem busOutput_append_wrote (t : List Event) (a : BusAddr) (v : Byte) :
    busOutput (t ++ [.wrote a v]) = some v := by simp [busOutput]
@[simp] theorem busOutput_append_failed (t : List Event) (a : BusAddr) (v : Byte) :
    busOutput (t ++ [.failed a v]) = none := by simp [busOutput]
@[simp] theorem busOutput_append_hold (t : List Event) (h : Hold) :
    busOutput (t ++ [.hold h]) = busOutput t := by simp [busOutput]

/-- What stands at the output after some events does not depend on what came before them. -/
theorem busOutput_append {u : List Event} {v : Byte} (h : busOutput u = some v) (t : List Event) :
    busOutput (t ++ u) = some v := by
  induction u using List.reverseRecOn with
  | nil => cases h
  | append_singleton u e ih =>
    rw [← List.append_assoc]
    cases e with
    | wrote a w =>
      rw [busOutput_append_wrote] at h ⊢
      exact h
    | failed a w =>
      rw [busOutput_append_failed] at h
      cases h
    | hold g =>
      rw [busOutput_append_hold] at h ⊢
      exact ih h

/-- After these events the output is known, and enable is low there. -/
def EndsLow (p : Params) (t : List Event) : Prop := ∃ v, busOutput t = some v ∧ v &&& p.enBit = 0

theorem EndsLow.prepend {p : Params} {u : List Event} (h : EndsLow p u) (t : List Event) : EndsLow p (t ++ u) := by
  obtain ⟨v, hv, hlow⟩ := h
  exact ⟨v, busOutput_append hv t, hlow⟩

theorem EndsLow.append_hold {p : Params} {t : List Event} (ht : EndsLow p t) (h : Hold) : EndsLow p (t ++ [.hold h]) := by
  simpa only [EndsLow, busOutput_append_hold] using ht

/-- R8: the backlight overlay does not touch the enable position. -/
theorem overlay_and_enBit {p : Params} (hw : p.wf = true) (bl : Bool) : p.overlay bl &&& p.enBit = 0 := by
  obtain ⟨-, -, hdisjoint⟩ := wf_disjoint hw
  cases bl with
  | false => simp [Params.overlay]
  | true => rw [BitVec.and_comm]; exact hdisjoint

/-- R145, step 3: the second byte of a strobe has enable cleared, and the overlay does not set it again. -/
theorem endsLow_strobe {p : Params} (hw : p.wf = true) (bl : Bool) (v : Byte) : EndsLow p (strobeTrace p bl v) := by
  refine ⟨(v &&& ~~~p.enBit) ||| p.overlay bl, rfl, ?_⟩
  rw [BitVec.and_or_distrib_right, overlay_and_enBit hw, BitVec.and_assoc, BitVec.and_comm (~~~p.enBit)]
  simp

/-- A byte ends in a strobe, in either word width. -/
theorem endsLow_sends {s : State} (hw : s.params.wf = true) (b : Byte) (rs : Rs) : EndsLow s.params (s.sends b rs) := by
  unfold State.sends
  cases s.cfg.ww with
  | w4 => exact (endsLow_strobe hw _ _).prepend _
  | w8 => exact endsLow_strobe hw _ _

theorem EndsLow.append_chars {s : State} (hw : s.params.wf = true) {t : List Event} (ht : EndsLow s.params t)
    (chars : List Byte) : EndsLow s.params (t ++ chars.flatMap (s.sends · .data)) := by
  induction chars generalizing t with
  | nil => simpa using ht
  | cons c chars ih =>
    rw [List.flatMap_cons, ← List.append_assoc]
    exact ih ((endsLow_sends hw c .data).prepend t)

/-- Every instruction ends in a byte, but `BACKLIGHT`, which writes the overlay alone, and `INIT`, which then holds. -/
theorem endsLow_instr {s : State} (hw : s.params.wf = true) (i : Instr) : EndsLow s.params (instrTrace i s) := by
  cases i with
  | backlight on => rw [instrTrace_backlight]; exact ⟨_, rfl, overlay_and_enBit hw _⟩
  | text row col chars => rw [instrTrace_text]; exact (endsLow_sends hw _ _).append_chars hw chars
  | init =>
    simp only [instrTrace_init, ← List.append_assoc]
    exact ((endsLow_sends hw _ _).prepend _).append_hold .tSettle
  | _ => simp [endsLow_sends hw]

/-- An instruction that answers `ok` ran to its end. -/
theorem exec_returned_ok {i : Instr} {s t : State} (h : exec i s = .next t) (hok : t.responses = s.responses ++ [.ok]) :
    t = (s.assign i).afterOk (instrTrace i (s.assign i)) := by
  obtain ⟨-, ⟨-, ht⟩ | ⟨n, e, -, rfl⟩⟩ := exec_next h
  · exact ht
  · simp [State.afterFail] at hok

/-- Settles O21: a successful request's events end with enable low, whatever the trace was before them. -/
theorem enableIsLowAfterSuccess : Obligations.EnableIsLowAfterSuccess := by
  intro i s t hw h hok
  rw [exec_returned_ok h hok]
  exact (endsLow_instr (s := s.assign i) hw i).prepend s.trace

/-! ### What the setters guarantee (R114) -/

/-- R176: an instruction leaves `DISP` and `BL` as its own assignments set them, whatever the bus answers. -/
theorem exec_disp_bl {i : Instr} {s t : State} (h : exec i s = .next t) :
    t.disp = dispAfter i s.disp ∧ t.bl = blAfter i s.bl := by
  obtain ⟨-, ⟨-, rfl⟩ | ⟨n, e, -, rfl⟩⟩ := exec_next h <;> exact ⟨rfl, rfl⟩

/-- Switching one fragment of a byte on or off changes at most that fragment's bits. -/
theorem fragment_xor (f rest : Byte) (new old : Bool) :
    (((if new then f else 0) ||| rest) ^^^ ((if old then f else 0) ||| rest)) &&& ~~~f = 0 := by
  refine BitVec.eq_of_getLsbD_eq fun i hi => ?_
  cases new <;> cases old <;> cases hf : f[i] <;> simp [hi, hf]

/-! R114 (b), in any encoding: each flag contributes its own fragment to the payload. -/

theorem dcPayload_setPower (p : Params) (d : Disp) (on : Bool) :
    (p.dcPayload { d with power := on } ^^^ p.dcPayload d) &&& ~~~p.dcPower = 0 := by
  simp only [Params.dcPayload, BitVec.or_assoc, fragment_xor]

theorem dcPayload_setCursor (p : Params) (d : Disp) (on : Bool) :
    (p.dcPayload { d with cursor := on } ^^^ p.dcPayload d) &&& ~~~p.dcCursor = 0 := by
  simp only [Params.dcPayload, BitVec.or_comm (if d.power then p.dcPower else 0), BitVec.or_assoc, fragment_xor]

theorem dcPayload_setBlink (p : Params) (d : Disp) (on : Bool) :
    (p.dcPayload { d with blink := on } ^^^ p.dcPayload d) &&& ~~~p.dcBlink = 0 := by
  simp only [Params.dcPayload, BitVec.or_comm _ (if _ then p.dcBlink else 0), fragment_xor]

/-- A setter's assignment is idempotent and leaves `BL` alone, and what the setter sends is `APPLY`. -/
theorem setter_facts {i : Instr} {on : Bool} (hi : i ∈ [Instr.power on, .cursor on, .blink on]) :
    (∀ d, dispAfter i (dispAfter i d) = dispAfter i d) ∧ (∀ b, blAfter i b = b) ∧
      ∀ u, instrTrace i u = u.sends (applyByte u) .cmd := by
  simp only [List.mem_cons, List.not_mem_nil, or_false] at hi
  obtain rfl | rfl | rfl := hi
  · exact ⟨fun _ => rfl, fun _ => rfl, fun u => instrTrace_power u on⟩
  · exact ⟨fun _ => rfl, fun _ => rfl, fun u => instrTrace_cursor u on⟩
  · exact ⟨fun _ => rfl, fun _ => rfl, fun u => instrTrace_blink u on⟩

/-- A successful setter adds one display-control command with the payload of the `DISP` it leaves. -/
theorem setter_trace {i : Instr} {on : Bool} (hi : i ∈ [Instr.power on, .cursor on, .blink on]) {s t : State}
    (h : exec i s = .next t) (hok : t.responses = s.responses ++ [.ok]) :
    t.trace = s.trace ++
      byteTrace s.params s.cfg.ww s.bl (s.params.opbDispctl ||| s.params.dcPayload t.disp) .cmd := by
  obtain ⟨-, hbl, hevents⟩ := setter_facts hi
  obtain ⟨hdisp, -⟩ := exec_disp_bl h
  have htrace := congrArg State.trace (exec_returned_ok h hok)
  simp only [State.afterOk, hevents, State.sends, assign_bl, hbl] at htrace
  rw [htrace, hdisp]
  rfl

/-- Settles O28: the flags are those of `dispAfter`, and the same setter again assigns nothing new and so sends the same byte. -/
theorem settersAreIdempotentOnDisp : Obligations.SettersAreIdempotentOnDisp := by
  refine ⟨fun on s t h => ?_, fun on s t h => ?_, fun on s t h => ?_, fun on s t u i hi h hok h' hok' => ?_⟩
  · obtain ⟨hdisp, -⟩ := exec_disp_bl h
    rw [hdisp]
    exact ⟨rfl, rfl, rfl, fun _ => dcPayload_setPower s.params s.disp on⟩
  · obtain ⟨hdisp, -⟩ := exec_disp_bl h
    rw [hdisp]
    exact ⟨rfl, rfl, rfl, fun _ => dcPayload_setCursor s.params s.disp on⟩
  · obtain ⟨hdisp, -⟩ := exec_disp_bl h
    rw [hdisp]
    exact ⟨rfl, rfl, rfl, fun _ => dcPayload_setBlink s.params s.disp on⟩
  · obtain ⟨hidem, hkeeps, -⟩ := setter_facts hi
    obtain ⟨hparams, hcfg, -⟩ := exec_frame h
    obtain ⟨hdisp, hbl⟩ := exec_disp_bl h
    obtain ⟨hdisp', -⟩ := exec_disp_bl h'
    have hsame : u.disp = t.disp := by rw [hdisp', hdisp, hidem]
    have hsecond := setter_trace hi h' hok'
    rw [hsame, hparams, hcfg, hbl, hkeeps] at hsecond
    exact ⟨hsame, setter_trace hi h hok, hsecond⟩

end Sys2Proof.Machine
end

section
/-! PROOF. The family 43_text_placement.md: the request `TEXT` (R130), the DDRAM-address function (R131, R133), and the rows
outside 1 to 4 (R132). -/

namespace Sys2Proof.Machine

/-! ### The request `TEXT` (R130) -/

/-- R62: the word of `TEXT` has `op` = 7, the row in `a` and the column in `b`. -/
theorem decodeItem_textWord (row col : Byte) (chars : List Byte) :
    decodeItem (.word (0x70000 ||| row.setWidth 20 <<< 8 ||| col.setWidth 20) chars) = .instr (.text row col chars) :=
  decodeOfEncodeIsTheInstruction (.text row col chars)

/-- `TEXT` with a text that fits assigns nothing, so whatever the bus answers it is its events performed from the state it starts
in. -/
theorem performs_text {s : State} {chars : List Byte} (hs : s.seq = .idle) (hfit : textFits s.params.textMax chars = true)
    (row col : Byte) : Performs (.text row col chars) s s (instrTrace (.text row col chars) s) :=
  performs_instr ⟨hs, hfit⟩

/-- Each character is one byte. -/
theorem writeCount_chars (s : State) (chars : List Byte) :
    writeCount (chars.flatMap (s.sends · .data)) = chars.length * (2 * strobesPerByte s.cfg.ww) := by
  induction chars with
  | nil => simp
  | cons c chars ih =>
    rw [List.flatMap_cons, writeCount_append, writeCount_sends, ih, List.length_cons]
    ring

/-- The address command is one byte more. -/
theorem writeCount_text (s : State) (row col : Byte) (chars : List Byte) :
    writeCount (instrTrace (.text row col chars) s) = (1 + chars.length) * (2 * strobesPerByte s.cfg.ww) := by
  rw [instrTrace_text, writeCount_append, writeCount_sends, writeCount_chars, Nat.add_mul, Nat.one_mul]

/-- Settles O8: the events are by definition those of `instrTrace_text`, counted by `writeCount_text`. -/
theorem textSendsAddressThenCharacters : Obligations.TextSendsAddressThenCharacters := by
  refine ⟨decodeItem_textWord, fun s row col chars hs hfit => ?_⟩
  intro p evs
  have htrace : instrTrace (.text row col chars) s = evs := instrTrace_text s row col chars
  refine ⟨?_, htrace ▸ performs_text hs hfit row col⟩
  rw [← htrace, writeCount_text]
  cases s.cfg.ww <;> rfl

/-! ### The DDRAM-address function (R131, R132) -/

/-- R132, in any encoding: the address in a row outside 1 to 4 is the address in row 1. -/
theorem ddramOffset_of_otherRow (p : Params) {row : Byte} (col : Byte) (h1 : row ≠ 1) (h2 : row ≠ 2) (h3 : row ≠ 3)
    (h4 : row ≠ 4) : p.ddramOffset row col = p.ddramOffset 1 col := by
  have hbase : p.rowBase row = p.rowBase 1 := by
    rw [Params.rowBase, if_neg h1, if_neg h2, if_neg h3, if_neg h4]; rfl
  rw [Params.ddramOffset, hbase]; rfl

/-- `TEXT` depends on its row and column through their address only. -/
theorem exec_text_congr {row row' col col' : Byte} {s : State}
    (h : s.params.ddramOffset row col = s.params.ddramOffset row' col') (chars : List Byte) :
    exec (.text row col chars) s = exec (.text row' col' chars) s := by
  simp only [exec, execText, bodyText, Params.ddramCmd, h]

/-- Settles O45: the two rows have the same address in every column. -/
theorem unknownRowIsRowOne : Obligations.UnknownRowIsRowOne :=
  fun s _ col chars h1 h2 h3 h4 => exec_text_congr (ddramOffset_of_otherRow s.params col h1 h2 h3 h4) chars

/-- R131: the four rows with the default encoding. -/
theorem ddramOffset_rows {p : Params} (hp : p.standardEncoding) :
    (∀ col, p.ddramOffset 1 col = col) ∧ (∀ col, p.ddramOffset 2 col = 0x40 + col) ∧
      (∀ col, p.ddramOffset 3 col = 0x14 + col) ∧ ∀ col, p.ddramOffset 4 col = 0x54 + col := by
  obtain ⟨hbase1, hbase2, hbase3, hbase4⟩ := standard_rows hp
  simp [Params.ddramOffset, Params.rowBase, hbase1, hbase2, hbase3, hbase4]

/-- R131: the address command with the default encoding. -/
theorem ddramCmd_standard {p : Params} (hp : p.standardEncoding) (row col : Byte) :
    p.ddramCmd row col = 0x80 ||| p.ddramOffset row col := by
  rw [Params.ddramCmd, cmdByte_eq_standard hp]; rfl

/-- Settles O44: the rows by `ddramOffset_rows`, every other row as row 1; R133's aliases and the wrap are these equations at
given columns. -/
theorem ddramAddressTable : Obligations.DdramAddressTable := by
  intro p hp
  obtain ⟨hrow1, hrow2, hrow3, hrow4⟩ := ddramOffset_rows hp
  refine ⟨fun col => ⟨hrow1 col, hrow2 col, hrow3 col, hrow4 col⟩, fun row col h1 h2 h3 h4 => ?_, ddramCmd_standard hp, ?_⟩
  · rw [ddramOffset_of_otherRow p col h1 h2 h3 h4, hrow1]
  · simp only [ddramCmd_standard hp, hrow1, hrow2, hrow3]
    decide

end Sys2Proof.Machine
end

section
/-! PROOF. The family 44_pipeline.md: the raw requests `CMD` and `WRITE` (R140 to R144), the strobe (R145), what the positions of a
bus byte hold (R148 to R150), the counts of bus writes and holds (R151), and the first event of a request (R156). -/

namespace Sys2Proof.Machine

/-! ### The strobe (R145) -/

/-- Bits that were put on are all there. -/
theorem byte_or_and_self (a b : Byte) : (a ||| b) &&& b = b :=
  BitVec.eq_of_getLsbD_eq fun i hi => by simp +contextual [hi]

theorem byte_and_or_self (a b : Byte) : (a &&& b) ||| b = b :=
  BitVec.eq_of_getLsbD_eq fun i hi => by simp +contextual [hi]

/-- R8: the two bytes of a strobe differ in the enable position and nowhere else. -/
theorem strobe_xor {p : Params} (hw : p.wf = true) (bl : Bool) (v : Byte) :
    ((v ||| p.enBit) ||| p.overlay bl) ^^^ ((v &&& ~~~p.enBit) ||| p.overlay bl) = p.enBit := by
  have hoverlay : p.overlay bl &&& p.enBit = 0 := overlay_and_enBit hw bl
  refine BitVec.eq_of_getLsbD_eq fun i hi => ?_
  have hbit := congrArg (·.getLsbD i) hoverlay
  simp only [BitVec.getLsbD_and] at hbit
  cases hen : p.enBit.getLsbD i <;> cases hv : v.getLsbD i <;> simp_all

/-- Settles O13: the strobe's events, whole, cut at the first write, and cut at the second; and `strobe_xor`. -/
theorem strobeRaisesThenLowersEnable : Obligations.StrobeRaisesThenLowersEnable := by
  intro s v
  have hcount : writeCount (stmtEvents s (.xmit v)) = 2 := writeCount_strobe _ _ v
  refine ⟨fun hok => ?_, fun e hfail => ?_, fun e hok hfail => ?_, fun hw => strobe_xor hw s.bl v⟩
  · have hack : Acknowledges s.bus (stmtEvents s (.xmit v)) := by rw [Acknowledges, hcount]; exact hok
    rw [runStmt_ok rfl hack, hcount]; rfl
  · have hcut : FailsAt s.bus 0 e (stmtEvents s (.xmit v)) := ⟨by omega, rfl, hfail⟩
    rw [runStmt_fail rfl hcut]; rfl
  · have hcut : FailsAt s.bus 1 e (stmtEvents s (.xmit v)) := ⟨by omega, by simp [hok], hfail⟩
    rw [runStmt_fail rfl hcut]; rfl

/-! ### The raw requests (R140, R142) -/

/-- R62: the word of `CMD` has `op` = 8, the opcode in `a` and the data in `b`. -/
theorem decodeItem_cmdWord (k : Opcode) (data : Byte) :
    decodeItem (.word (0x80000 ||| k.toBits.setWidth 20 <<< 8 ||| data.setWidth 20) []) = .instr (.cmd k data) := by
  have hopcode : k.toBits.setWidth 20 = (0#5 ++ k.toBits).setWidth 20 := by cases k <;> rfl
  rw [hopcode]
  exact decodeOfEncodeIsTheInstruction (.cmd k data)

/-- R62: the word of `WRITE` has `op` = 9, `rs` in `a` and the byte in `b`. -/
theorem decodeItem_writeWord (byte : Byte) (rs : Rs) :
    decodeItem (.word (0x90000 ||| (if rs = .data then 0x100 else 0) ||| byte.setWidth 20) []) =
      .instr (.write byte rs) := by
  have hmode : (if rs = .data then (0x100 : ReqWord) else 0) = (bitByte rs.toBit).setWidth 20 <<< 8 := by cases rs <;> rfl
  rw [hmode]
  exact decodeOfEncodeIsTheInstruction (.write byte rs)

/-- Settles O10: `CMD` sends one byte, the base of its opcode OR the data, and assigns nothing. -/
theorem cmdSendsBaseOrData : Obligations.CmdSendsBaseOrData := by
  refine ⟨decodeItem_cmdWord, fun s data hs => ?_⟩
  have hcmd (k : Opcode) := performs_sends ⟨hs, rfl⟩ (instrTrace_cmd (s.assign (.cmd k data)) k data)
  simp only [List.forall_mem_cons, List.not_mem_nil, false_implies, implies_true, and_true]
  exact ⟨hcmd .clearDisplay, hcmd .returnHome, hcmd .entryModeSet, hcmd .displayControl, hcmd .cursorShift,
    hcmd .functionSet, hcmd .setCgramAddr, hcmd .setDdramAddr⟩

/-- R74: the mode is the register-select bit of a data byte. -/
theorem mode_eq (p : Params) (rs : Rs) : p.mode rs = if rs = .data then p.rsBit else 0x00 := by
  cases rs <;> rfl

/-- Settles O11: `WRITE` sends its byte and assigns nothing; `byteTrace` written out, with R74's mode, is the list of the
statement. -/
theorem writeSerializesTheByte : Obligations.WriteSerializesTheByte := by
  refine ⟨decodeItem_writeWord, fun s byte rs hs => ?_⟩
  have hperf := performs_sends ⟨hs, rfl⟩ (instrTrace_write (s.assign (.write byte rs)) byte rs)
  intro p a mode bl hi lo evs
  have hevents : byteTrace p s.cfg.ww s.bl byte rs = evs := by
    simp only [byteTrace, mode_eq, evs]
    cases s.cfg.ww <;> rfl
  exact hevents ▸ hperf

/-- An assignment takes nothing from the bus: the rest of the request starts in the state it leaves. -/
theorem request_assign {x : Stmt} {s u : State} (hx : runStmt x s = .done u) (hseq : u.seq = s.seq) (xs : List Stmt) :
    request (x :: xs) s = request xs u := by
  simp only [request, hseq, runStmts, hx, andThen_done]

/-- `APPLY` is the raw display-control command with the payload of `DISP`. -/
theorem request_apply (s : State) :
    request [.apply] s = exec (.cmd .displayControl (s.params.dcPayload s.disp)) s := rfl

theorem textFits_nil (textMax : Option Nat) : textFits textMax [] = true := by
  cases textMax with
  | none => rfl
  | some m => simp [textFits]

/-- Settles O41: each builder's micro-sequence is the raw command's, a setter's after its assignment; a text of no characters
always fits. -/
theorem buildersAreRawCommands : Obligations.BuildersAreRawCommands := by
  intro s
  refine ⟨?_, fun dir sh => rfl, fun on => ?_, fun on => ?_, fun on => ?_, fun hs => ?_, fun row col => ?_⟩
  · have hclear : s.params.cmdByte .clearDisplay 0 = s.params.opbClear := BitVec.or_zero
    simp only [exec, execCmd, bodyCmd, hclear]; rfl
  · exact (request_assign (x := .setPower on) rfl rfl _).trans (request_apply (s.setPower on))
  · exact (request_assign (x := .setCursor on) rfl rfl _).trans (request_apply (s.setCursor on))
  · exact (request_assign (x := .setBlink on) rfl rfl _).trans (request_apply (s.setBlink on))
  · simp only [exec, execCmd, request, hs]; rfl
  · simp only [exec, execText, textFits_nil, if_true]; rfl

/-! ### The positions of a bus byte in 8-bit word width (R150) -/

/-- Apart from the enable position, both bytes of a strobe hold the strobed value with the overlay on it. -/
theorem strobe_and {p : Params} {z : Byte} (hz : p.enBit &&& z = 0#8) (bl : Bool) (v : Byte) :
    ∀ w ∈ busBytes (strobeTrace p bl v), w &&& z = (v &&& z) ||| (p.overlay bl &&& z) := by
  intro w hw
  simp only [strobeTrace, busBytes_wrote, busBytes_hold, busBytes_nil, List.mem_cons, List.not_mem_nil, or_false] at hw
  obtain rfl | rfl := hw
  · simp [BitVec.and_or_distrib_right, hz]
  · have hclear : z &&& ~~~p.enBit = z := and_not_of_and_eq_zero (by rwa [BitVec.and_comm])
    rw [BitVec.and_or_distrib_right, BitVec.and_assoc, BitVec.and_comm _ z, hclear]

/-- R145: the enable position of a strobe is 1 and then 0. -/
theorem strobe_enable {p : Params} (hw : p.wf = true) (bl : Bool) (v : Byte) :
    ((v ||| p.enBit) ||| p.overlay bl) &&& p.enBit = p.enBit ∧
      ((v &&& ~~~p.enBit) ||| p.overlay bl) &&& p.enBit = 0 := by
  have hoverlay : p.overlay bl &&& p.enBit = 0 := overlay_and_enBit hw bl
  constructor
  · rw [BitVec.and_or_distrib_right, byte_or_and_self, hoverlay]
    simp
  · rw [BitVec.and_or_distrib_right, BitVec.and_assoc, BitVec.and_comm (~~~p.enBit), hoverlay]
    simp

theorem overlay_and {p : Params} {z : Byte} (hz : p.blBit &&& z = 0#8) (bl : Bool) : p.overlay bl &&& z = 0#8 := by
  cases bl <;> simp [Params.overlay, hz]

theorem mode_and {p : Params} {z : Byte} (hz : p.rsBit &&& z = 0#8) (rs : Rs) : p.mode rs &&& z = 0#8 := by
  cases rs <;> simp [Params.mode, hz]

/-- R150: what both bus bytes of `byte` hold in 8-bit word width. -/
theorem positions_byte_w8 {p : Params} (hw : p.wf = true) (bl : Bool) (byte : Byte) (rs : Rs) :
    ∀ v ∈ busBytes (byteTrace p .w8 bl byte rs), v &&& 0xF0 = byte &&& 0xF0 ∧
      v &&& p.rsBit = (if rs = .data then p.rsBit else byte &&& p.rsBit) ∧
      v &&& p.blBit = (if bl then p.blBit else byte &&& p.blBit) ∧
      v &&& p.rwBit = byte &&& p.rwBit := by
  intro v hv
  obtain ⟨⟨hrsrw, hrsen, hrsbl⟩, ⟨hrwen, hrwbl⟩, henbl⟩ := wf_disjoint hw
  have hlow := wf_low hw
  simp only [Params.overlayBits, List.forall_mem_cons] at hlow
  obtain ⟨hrs, -, hen, hbl, -⟩ := hlow
  have hat {z : Byte} (hz : p.enBit &&& z = 0#8) :
      v &&& z = ((byte &&& z) ||| (p.mode rs &&& z)) ||| (p.overlay bl &&& z) := by
    rw [strobe_and hz bl _ v hv, BitVec.and_or_distrib_right]
  refine ⟨?_, ?_, ?_, ?_⟩
  · simpa [mode_and hrs, overlay_and hbl] using hat hen
  · rw [hat (by rwa [BitVec.and_comm]), overlay_and (by rwa [BitVec.and_comm])]
    cases rs <;> simp [Params.mode, byte_and_or_self]
  · rw [hat henbl, mode_and hrsbl]
    cases bl <;> simp [Params.overlay, byte_and_or_self]
  · rw [hat (by rwa [BitVec.and_comm]), mode_and hrsrw, overlay_and (by rwa [BitVec.and_comm])]; simp

/-- Settles O18: the acknowledged `WRITE` answers a next state, and its two bytes are those of one strobe. -/
theorem eightBitOverlapsTheLowBits : Obligations.EightBitOverlapsTheLowBits := by
  intro s byte rs hw hidle hww hbus p
  have hperf := performs_sends ⟨hidle, rfl⟩ (instrTrace_write (s.assign (.write byte rs)) byte rs)
  rw [hww] at hperf
  obtain ⟨hdone, -⟩ := hperf
  obtain ⟨hup, hdown⟩ := strobe_enable hw s.bl (byte ||| p.mode rs)
  exact ⟨_, _, _, hdone hbus, busBytes_append _ _, hup, hdown, positions_byte_w8 hw s.bl byte rs⟩

/-! ### The backlight position (R148) -/

/-- In 4-bit word width, and in `BACKLIGHT` in either, every byte an instruction adds is placed, with the `BL` it leaves. -/
theorem exec_placed {i : Instr} {s t : State} (hw : s.params.wf = true)
    (hww : s.cfg.ww = .w4 ∨ ∃ on, i = .backlight on) (h : exec i s = .next t) :
    ∃ evs, t.trace = s.trace ++ evs ∧ ∀ v ∈ busBytes evs, Placed s.params t.bl v := by
  obtain ⟨evs, htrace, hbytes⟩ := exec_trace h
  obtain ⟨-, hbl⟩ := exec_disp_bl h
  exact ⟨evs, htrace, fun v hv => hbl ▸ placed_instr (s := s.assign i) hw hww v (hbytes v hv)⟩

/-- Every byte of these events has the backlight overlay on it. -/
def CarriesOverlay (p : Params) (bl : Bool) (t : List Event) : Prop :=
  ∀ v ∈ busBytes t, v &&& p.overlay bl = p.overlay bl

theorem CarriesOverlay.append {p : Params} {bl : Bool} {t u : List Event} (ht : CarriesOverlay p bl t)
    (hu : CarriesOverlay p bl u) : CarriesOverlay p bl (t ++ u) := by
  intro v hv
  rw [busBytes_append, List.mem_append] at hv
  exact hv.elim (ht v) (hu v)

theorem carriesOverlay_hold (p : Params) (bl : Bool) (h : Hold) : CarriesOverlay p bl [.hold h] := by
  simp [CarriesOverlay]

theorem carriesOverlay_strobe (p : Params) (bl : Bool) (v : Byte) : CarriesOverlay p bl (strobeTrace p bl v) := by
  simp [CarriesOverlay, strobeTrace, byte_or_and_self]

theorem carriesOverlay_byte (p : Params) (ww : WordWidth) (bl : Bool) (b : Byte) (rs : Rs) :
    CarriesOverlay p bl (byteTrace p ww bl b rs) := by
  cases ww with
  | w4 => exact (carriesOverlay_strobe _ _ _).append (carriesOverlay_strobe _ _ _)
  | w8 => exact carriesOverlay_strobe _ _ _

/-- R147: every bus write of an instruction goes through `BUSW`. -/
theorem carriesOverlay_instr (i : Instr) (s : State) : CarriesOverlay s.params s.bl (instrTrace i s) := by
  intro v hv
  simp only [instrTrace, busBytes, List.filterMap_flatMap, List.mem_flatMap] at hv
  obtain ⟨x, hx, hv⟩ := hv
  change v ∈ busBytes (stmtEvents s x) at hv
  obtain ⟨n, rfl⟩ | rfl | rfl | ⟨b, rs, rfl⟩ | ⟨h, rfl⟩ | ⟨-, rfl⟩ := sends_mem hx
  · exact ((carriesOverlay_strobe _ _ _).append (carriesOverlay_hold _ _ _)) v hv
  · exact carriesOverlay_byte _ _ _ _ _ v hv
  · exact carriesOverlay_byte _ _ _ _ _ v hv
  · exact carriesOverlay_byte _ _ _ _ _ v hv
  · exact carriesOverlay_hold _ _ _ v hv
  · simp only [stmtEvents, busBytes_wrote, busBytes_nil, List.mem_singleton] at hv
    rw [hv, byte_or_and_self]

/-- An idle encoder in 8-bit word width, with the backlight off and a bus that answers `ok`. -/
def darkW8 : State := State.resetWith { Params.standard with straps := ⟨.w8, .l1, .m5x8⟩ }

/-- Settles O19: in 4-bit word width the bytes are placed; in 8-bit word width they carry the overlay; and with the backlight off
`WRITE 0xFF` sends the backlight position as the byte has it. -/
theorem backlightPositionByWordWidth : Obligations.BacklightPositionByWordWidth := by
  refine ⟨fun i s t hw hww h => ?_, fun i s t hw hww hbl h => ?_, ?_⟩
  · obtain ⟨evs, htrace, hplaced⟩ := exec_placed hw (.inl hww) h
    exact ⟨evs, htrace, fun v hv => placed_bl hw (hplaced v hv)⟩
  · obtain ⟨evs, htrace, hbytes⟩ := exec_trace h
    refine ⟨evs, htrace, fun v hv => ?_⟩
    obtain ⟨-, hblAfter⟩ := exec_disp_bl h
    have hcarries : v &&& s.params.overlay (blAfter i s.bl) = s.params.overlay (blAfter i s.bl) :=
      carriesOverlay_instr i (s.assign i) v (hbytes v hv)
    rwa [← hblAfter, hbl] at hcarries
  · exact ⟨.write 0xFF .cmd, darkW8, _, byteTrace darkW8.params .w8 false 0xFF .cmd, by decide, rfl, rfl, rfl, rfl,
      0xFF, by decide, by decide⟩

/-! ### The read-write position (R149) -/

/-- The three ways a plain statement can end, as the bus answers. -/
theorem runStmt_cases {x : Stmt} (hx : x.plain = true) (s : State) :
    runStmt x s = .done (s.played (writeCount (stmtEvents s x)) (stmtEvents s x)) ∨
      (∃ n e, runStmt x s = .aborted (s.played (n + 1) (cutAt n (stmtEvents s x))) e) ∨ runStmt x s = .hung := by
  obtain hok | ⟨n, e, hfail⟩ | ⟨n, hn, hok, hsilent⟩ := bus_cases s.bus (writeCount (stmtEvents s x))
  · exact .inl (runStmt_ok hx hok)
  · exact .inr (.inl ⟨n, e, runStmt_fail hx hfail⟩)
  · exact .inr (.inr (by rw [runStmt_eq_play hx, play_hung (allTo_stmt s x) rfl hn hok hsilent]))

/-- A plain statement that ends, done or aborted, has added bytes of its events and no others. -/
theorem runStmt_trace {x : Stmt} (hx : x.plain = true) {s t : State} (h : (runStmt x s).endsIn t) :
    ∃ evs, t.trace = s.trace ++ evs ∧ ∀ v ∈ busBytes evs, v ∈ busBytes (stmtEvents s x) := by
  obtain hdone | ⟨n, e, hcut⟩ | hhung := runStmt_cases hx s
  · rw [hdone] at h
    obtain h | ⟨e, h⟩ := h <;> cases h
    exact ⟨_, rfl, fun _ hv => hv⟩
  · rw [hcut] at h
    obtain h | ⟨e, h⟩ := h <;> cases h
    exact ⟨_, rfl, fun _ hv => busBytes_cutAt hv⟩
  · rw [hhung] at h
    obtain h | ⟨e, h⟩ := h <;> cases h

/-- Settles O20: in 4-bit word width, in `BACKLIGHT` and in `NIB` every byte is placed. -/
theorem readWriteBitClearInW4NibAndBacklight : Obligations.ReadWriteBitClearInW4NibAndBacklight := by
  refine ⟨fun i s t hw hww h => ?_, ?_⟩
  · obtain ⟨evs, htrace, hplaced⟩ := exec_placed hw hww h
    exact ⟨evs, htrace, fun v hv => placed_rw hw (hplaced v hv)⟩
  · rintro n s t _ hw rfl hends
    obtain ⟨evs, htrace, hbytes⟩ := runStmt_trace (x := .nib n) rfl hends
    exact ⟨evs, htrace, fun v hv => placed_rw hw (placed_nib hw s.bl n v (hbytes v hv))⟩

/-! ### The first event of a request (R156) -/

/-- The first of these events is an acknowledged bus write to `a`. -/
def StartsWithWrite (a : BusAddr) (t : List Event) : Prop := ∃ v rest, t = .wrote a v :: rest

theorem StartsWithWrite.append {a : BusAddr} {t : List Event} (h : StartsWithWrite a t) (u : List Event) :
    StartsWithWrite a (t ++ u) := by
  obtain ⟨v, rest, rfl⟩ := h
  exact ⟨v, rest ++ u, rfl⟩

theorem startsWithWrite_sends (s : State) (b : Byte) (rs : Rs) : StartsWithWrite s.params.i2cAddr (s.sends b rs) := by
  unfold State.sends
  cases s.cfg.ww <;> exact ⟨_, _, rfl⟩

theorem startsWithWrite_instr (i : Instr) (s : State) : StartsWithWrite s.params.i2cAddr (instrTrace i s) := by
  cases i with
  | init => exact ⟨_, _, rfl⟩
  | backlight on => exact ⟨_, _, rfl⟩
  | text row col chars => rw [instrTrace_text]; exact (startsWithWrite_sends _ _ _).append _
  | _ => simp [startsWithWrite_sends]

/-- Settles O22: the first event of an instruction is a bus write, acknowledged, or failed where the request is cut at once. -/
theorem everyRequestStartsWithABusWrite : Obligations.EveryRequestStartsWithABusWrite := by
  intro i s t h
  obtain ⟨v, rest, hstart⟩ := startsWithWrite_instr i (s.assign i)
  obtain ⟨-, ⟨-, rfl⟩ | ⟨n, e, -, rfl⟩⟩ := exec_next h
  · exact ⟨.wrote s.params.i2cAddr v, rest, v, by rw [State.afterOk, hstart]; rfl, rfl, rfl⟩
  · cases n with
    | zero => exact ⟨.failed s.params.i2cAddr v, [], v, by rw [State.afterFail, hstart]; rfl, rfl, rfl⟩
    | succ n => exact ⟨.wrote s.params.i2cAddr v, cutAt n rest, v, by rw [State.afterFail, hstart]; rfl, rfl, rfl⟩

/-! ### Bus writes and holds (R151) -/

/-- A plain statement performed to its end has added its events. -/
theorem runStmt_done_trace {x : Stmt} (hx : x.plain = true) {s t : State} (h : runStmt x s = .done t) :
    t.trace = s.trace ++ stmtEvents s x := by
  obtain hdone | ⟨n, e, hcut⟩ | hhung := runStmt_cases hx s
  · rw [hdone] at h; cases h; rfl
  · rw [hcut] at h; cases h
  · rw [hhung] at h; cases h

/-- R151, by statement. -/
theorem writeCount_stmt (s : State) (x : Stmt) : writeCount (stmtEvents s x) = stmtWrites s.cfg.ww x := by
  cases x <;> simp [stmtEvents, stmtWrites]

/-- An assignment, performed to its end, adds nothing. -/
theorem runStmt_assignment {x : Stmt} (hx : x.plain = false) {s t : State} (h : runStmt x s = .done t) :
    t.trace = s.trace ∧ stmtWrites s.cfg.ww x = 0 := by
  cases x with
  | setPower on => cases h; exact ⟨rfl, rfl⟩
  | setCursor on => cases h; exact ⟨rfl, rfl⟩
  | setBlink on => cases h; exact ⟨rfl, rfl⟩
  | setBl on => cases h; exact ⟨rfl, rfl⟩
  | _ => cases hx

/-- R151: the bus writes of a successful instruction. -/
theorem writeCount_instr (i : Instr) (s : State) : writeCount (instrTrace i s) = busWrites s.cfg.ww i := by
  cases i with
  | init =>
    rw [writeCount_init]
    simp only [busWrites, strobesSent, nibblesSent, bytesSent, bareWrites]
    omega
  | backlight on => simp [busWrites, strobesSent, nibblesSent, bytesSent, bareWrites]
  | text row col chars =>
    rw [writeCount_text]
    simp only [busWrites, strobesSent, nibblesSent, bytesSent, bareWrites]
    ring
  | _ => simp [busWrites, strobesSent, nibblesSent, bytesSent, bareWrites]

/-- Holds of a name in one strobe (R145). -/
def strobeHolds (h : Hold) : Nat := if h = .tEn ∨ h = .tPost then 1 else 0

/-- Holds of a name in a successful instruction (R151): those of its strobes, `T_CMD` after each nibble, and the `T_SETTLE` that
ends `INIT`. -/
def holdsMade (ww : WordWidth) (i : Instr) (h : Hold) : Nat :=
  strobesSent ww i * strobeHolds h + (if h = .tCmd then nibblesSent i else 0) +
    if h = .tSettle ∧ i = .init then 1 else 0

@[simp] theorem holdCount_strobe (h : Hold) (p : Params) (bl : Bool) (v : Byte) :
    holdCount h (strobeTrace p bl v) = strobeHolds h := by
  cases h <;> rfl

@[simp] theorem holdCount_nib (h : Hold) (p : Params) (bl : Bool) (n : Nibble) :
    holdCount h (nibTrace p bl n) = strobeHolds h + if h = .tCmd then 1 else 0 := by
  cases h <;> rfl

@[simp] theorem holdCount_sends (h : Hold) (s : State) (b : Byte) (rs : Rs) :
    holdCount h (s.sends b rs) = strobesPerByte s.cfg.ww * strobeHolds h := by
  unfold State.sends
  cases s.cfg.ww <;> simp [byteTrace, strobesPerByte, Nat.two_mul]

theorem holdCount_chars (h : Hold) (s : State) (chars : List Byte) :
    holdCount h (chars.flatMap (s.sends · .data)) = chars.length * (strobesPerByte s.cfg.ww * strobeHolds h) := by
  induction chars with
  | nil => simp
  | cons c chars ih =>
    rw [List.flatMap_cons, holdCount_append, holdCount_sends, ih, List.length_cons]
    ring

/-- R151: the holds of a successful instruction. -/
theorem holdCount_instr (h : Hold) (i : Instr) (s : State) : holdCount h (instrTrace i s) = holdsMade s.cfg.ww i h := by
  cases i with
  | init =>
    simp only [instrTrace_init, holdCount_append, holdCount_nib, holdCount_sends, holdsMade, strobesSent, nibblesSent,
      bytesSent]
    cases h <;> simp [strobeHolds] <;> ring
  | backlight on => simp [holdsMade, strobesSent, nibblesSent, bytesSent]
  | text row col chars =>
    simp only [instrTrace_text, holdCount_append, holdCount_sends, holdCount_chars, holdsMade, strobesSent, nibblesSent,
      bytesSent, reduceCtorEq, and_false, if_false, ite_self]
    ring
  | _ => simp [holdsMade, strobesSent, nibblesSent, bytesSent]

/-- Settles O23: a statement, and an instruction, performed to its end has added its events and no others. -/
theorem successfulRequestsHaveFixedCounts : Obligations.SuccessfulRequestsHaveFixedCounts := by
  refine ⟨fun x s t h => ?_, fun i s t h hok => ?_⟩
  · cases hx : x.plain with
    | true => rw [runStmt_done_trace hx h, writeCount_append, writeCount_stmt]
    | false =>
      obtain ⟨htrace, hzero⟩ := runStmt_assignment hx h
      rw [htrace, hzero, Nat.add_zero]
  · have hholds (g : Hold) := holdCount_instr g i (s.assign i)
    refine ⟨instrTrace i (s.assign i), ?_, writeCount_instr i _, ?_, ?_, ?_, ?_⟩
    · rw [exec_returned_ok h hok]; rfl
    all_goals rw [hholds]; simp [holdsMade, strobeHolds]

/-! ### The raw requests and the shadow (R141) -/

/-- A successful `INIT` sends its whole sequence, the display-control command with the payload of `DISP`. -/
theorem init_trace {s t : State} (h : exec .init s = .next t) (hok : t.responses = s.responses ++ [.ok]) :
    t.trace = s.trace ++ instrTrace .init s := by
  rw [exec_returned_ok h hok]; rfl

/-- Settles O26: `CMD` and `WRITE` assign nothing, so the next request starts from the `CFG`, `DISP` and `BL` they started
from. -/
theorem rawRequestsLeaveTheShadowAlone : Obligations.RawRequestsLeaveTheShadowAlone := by
  intro i s t hraw h
  obtain ⟨hparams, hcfg, -⟩ := exec_frame h
  have hshadow : t.disp = s.disp ∧ t.bl = s.bl := by
    obtain ⟨k, data, rfl⟩ | ⟨b, rs, rfl⟩ := hraw <;> exact exec_disp_bl h
  obtain ⟨hdisp, hbl⟩ := hshadow
  refine ⟨⟨hcfg, hdisp, hbl⟩, ?_⟩
  intro p send applied
  have hsetter {j : Instr} {on : Bool} (hj : j ∈ [Instr.power on, .cursor on, .blink on]) {u : State}
      (hu : exec j t = .next u) (hok : u.responses = t.responses ++ [.ok]) :
      u.trace = t.trace ++ applied (dispAfter j s.disp) := by
    have htrace := setter_trace hj hu hok
    obtain ⟨hdispAfter, -⟩ := exec_disp_bl hu
    rwa [hdispAfter, hparams, hcfg, hbl, hdisp] at htrace
  refine ⟨fun on u => hsetter (j := .power on) (on := on) (by simp),
    fun on u => hsetter (j := .cursor on) (on := on) (by simp),
    fun on u => hsetter (j := .blink on) (on := on) (by simp), fun u hu hok => ?_⟩
  rw [init_trace hu hok, instrTrace_init]
  simp only [State.sends, fsetByte, applyByte, hparams, hcfg, hdisp, hbl, List.append_assoc]
  rfl

end Sys2Proof.Machine
end

section
/-! PROOF. The family 60_exceptions.md: what a request leaves unchanged (R176), how a bus failure cuts it short (R175), and that
earlier traffic and later requests do not matter to it (R178). -/

namespace Sys2Proof.Machine

/-! ### The frame of a request (60_exceptions.md R176) -/

/-- Settles O25: what no instruction changes is `exec_frame`, and the field its own setter writes is `exec_disp_bl`. -/
theorem requestsWriteOnlyTheirOwnField : Obligations.RequestsWriteOnlyTheirOwnField := by
  intro i s t h
  obtain ⟨hparams, hcfg, hport, -, hseq⟩ := exec_frame h
  obtain ⟨hdisp, hbl⟩ := exec_disp_bl h
  exact ⟨hcfg, hdisp, hbl, hseq, hparams, hport⟩

/-! ### Two buses: one that acknowledges every write, and one that acknowledges the first `n` -/

theorem okFor_acknowledging (n : Nat) : Bus.okFor n ⟨[], .ok⟩ = true := by
  induction n with
  | zero => rfl
  | succ n ih => exact ih

theorem okFor_replicate (n : Nat) (later : List BusAnswer) (rest : BusAnswer) :
    Bus.okFor n ⟨List.replicate n .ok ++ later, rest⟩ = true := by
  induction n with
  | zero => rfl
  | succ n ih => exact ih

theorem skip_replicate (n : Nat) (later : List BusAnswer) (rest : BusAnswer) :
    Bus.skip n ⟨List.replicate n .ok ++ later, rest⟩ = ⟨later, rest⟩ := by
  induction n with
  | zero => rfl
  | succ n ih => exact ih

theorem skip_replicate_succ (n : Nat) (a : BusAnswer) (later : List BusAnswer) (rest : BusAnswer) :
    Bus.skip (n + 1) ⟨List.replicate n .ok ++ a :: later, rest⟩ = ⟨later, rest⟩ := by
  rw [skip_add, skip_replicate]; rfl

/-! ### What an instruction sends depends on the encoder's own state alone (10_state.md R32) -/

/-- The events of an instruction are a function of the parameters, `CFG`, `DISP` and `BL`. -/
theorem instrTrace_congr {i : Instr} {s u : State} (hparams : u.params = s.params) (hcfg : u.cfg = s.cfg)
    (hdisp : u.disp = s.disp) (hbl : u.bl = s.bl) : instrTrace i u = instrTrace i s := by
  have hstmt : stmtEvents u = stmtEvents s := by
    funext x
    cases x <;> simp only [stmtEvents, State.sends, fsetByte, applyByte, hparams, hcfg, hdisp, hbl]
  rw [instrTrace, instrTrace, hparams, hstmt]

/-- An accepted instruction performs, whatever the bus answers, the events of any state that agrees with its own in the
parameters, `CFG`, `DISP` and `BL`. -/
theorem performs_of_agree {i : Instr} {s u : State} (hu : Ready i u) (hparams : u.params = s.params) (hcfg : u.cfg = s.cfg)
    (hdisp : u.disp = s.disp) (hbl : u.bl = s.bl) : Performs i u (u.assign i) (instrTrace i (s.assign i)) := by
  have hevents : instrTrace i (u.assign i) = instrTrace i (s.assign i) :=
    instrTrace_congr hparams hcfg (congrArg (dispAfter i) hdisp) (congrArg (blAfter i) hbl)
  exact hevents ▸ performs_instr hu

/-- With any other bus an instruction performs the same events. -/
theorem performs_withBus {i : Instr} {s : State} (h : Ready i s) (b : Bus) :
    Performs i { s with bus := b } { s.assign i with bus := b } (instrTrace i (s.assign i)) :=
  performs_of_agree (u := { s with bus := b }) h rfl rfl rfl rfl

/-- After any other traffic, and with anything else presented, an instruction performs the same events. -/
theorem performs_withTraffic {i : Instr} {s : State} (h : Ready i s) (trace : List Event) (responses : List Response)
    (port : List PortItem) :
    Performs i { s with trace := trace, responses := responses, port := port }
      { s.assign i with trace := trace, responses := responses, port := port } (instrTrace i (s.assign i)) :=
  performs_of_agree (u := { s with trace := trace, responses := responses, port := port }) h rfl rfl rfl rfl

/-! ### A request cut short (60_exceptions.md R175) -/

/-- An instruction that answers a next state with every write acknowledged was accepted and has performed all its events. -/
theorem exec_acknowledged {i : Instr} {s t : State} (h : exec i { s with bus := ⟨[], .ok⟩ } = .next t) :
    Ready i s ∧ t = State.afterOk { s.assign i with bus := ⟨[], .ok⟩ } (instrTrace i (s.assign i)) := by
  obtain ⟨hready, -⟩ := exec_next h
  obtain ⟨hdone, -⟩ := performs_withBus (s := s) hready ⟨[], .ok⟩
  rw [hdone (okFor_acknowledging _)] at h
  cases h
  exact ⟨hready, rfl⟩

/-- Settles O29: the bus fails write `n` of the events that the acknowledged run performs. -/
theorem busFailureCutsTheRequestShort : Obligations.BusFailureCutsTheRequestShort := by
  intro i s t evs n e later rest h htrace hn
  obtain ⟨hready, rfl⟩ := exec_acknowledged h
  obtain rfl : instrTrace i (s.assign i) = evs := List.append_cancel_left htrace
  obtain ⟨-, hcut⟩ := performs_withBus hready ⟨List.replicate n .ok ++ .fail e :: later, rest⟩
  rw [hcut n e ⟨hn, okFor_replicate _ _ _, by rw [skip_replicate]; rfl⟩]
  have hidle : s.seq = .idle := hready.left
  simp only [State.afterFail, State.afterOk, skip_replicate_succ, assign_seq, assign_trace, assign_responses, hidle]

/-! ### Earlier traffic and later requests (60_exceptions.md R178) -/

/-- Settles O32: the same bus acknowledges the same events, or cuts them at the same write. -/
theorem earlierTrafficDoesNotMatter : Obligations.EarlierTrafficDoesNotMatter := by
  intro i s t evs r h htrace hresp trace responses port
  obtain ⟨hready, hends⟩ := exec_next h
  obtain ⟨hdone, hcut⟩ := performs_withTraffic hready trace responses port
  obtain ⟨hok, rfl⟩ | ⟨n, e, hfail, rfl⟩ := hends
  · obtain rfl : instrTrace i (s.assign i) = evs := List.append_cancel_left htrace
    obtain rfl : Response.ok = r := by simpa [State.afterOk] using hresp
    exact hdone hok
  · obtain rfl : cutAt n (instrTrace i (s.assign i)) = evs := List.append_cancel_left htrace
    obtain rfl : Response.err e = r := by simpa [State.afterFail] using hresp
    exact hcut n e hfail

end Sys2Proof.Machine
end

section
/-! PROOF. The family 70_reset_and_hazards.md: the state after reset (R190, R191) and its invariant (00_scope.md R8), one request
at a time (R209), and the minimum durations (R210). -/

namespace Sys2Proof.Machine

/-! ### Minimum durations (R210) -/

/-- A trace takes at least the holds of each name times the duration of that name (R205 to R208). -/
theorem minDuration_eq_holdCounts (p : Params) (t : List Event) :
    minDuration p t = holdCount .tEn t * p.tEn + holdCount .tPost t * p.tPost + holdCount .tCmd t * p.tCmd +
      holdCount .tSettle t * p.tSettle := by
  induction t with
  | nil => simp
  | cons e t ih =>
    cases e with
    | wrote a v => simp only [minDuration_wrote, holdCount_wrote, ih]
    | failed a v => rw [minDuration_failed, ih]; rfl
    | hold h =>
      rw [minDuration_hold, ih]
      cases h <;> simp [Params.duration] <;> ring

/-- R210: the minimum duration of the events of a successful instruction. -/
theorem minDuration_of_ok {i : Instr} {s t : State} (h : exec i s = .next t) (hok : t.responses = s.responses ++ [.ok]) :
    ∃ evs, t.trace = s.trace ++ evs ∧ minDuration s.params evs =
      strobesSent s.cfg.ww i * (s.params.tEn + s.params.tPost) + nibblesSent i * s.params.tCmd +
        (if i = .init then s.params.tSettle else 0) := by
  obtain ⟨-, hcounts⟩ := successfulRequestsHaveFixedCounts
  obtain ⟨evs, htrace, -, hEn, hPost, hCmd, hSettle⟩ := hcounts i s t h hok
  refine ⟨evs, htrace, ?_⟩
  rw [minDuration_eq_holdCounts, hEn, hPost, hCmd, hSettle, Nat.mul_add, ite_mul, Nat.one_mul, Nat.zero_mul]

/-- `INIT` makes twelve strobes in 4-bit word width and eight in 8-bit (41_initialize.md R100). -/
theorem strobesSent_init (ww : WordWidth) : strobesSent ww .init = match ww with | .w4 => 12 | .w8 => 8 := by
  cases ww <;> rfl

/-- Settles O24: the holds of a successful request (R151) times their durations; for `INIT`, with the nominal values. -/
theorem successfulRequestsHaveMinimumDurations : Obligations.SuccessfulRequestsHaveMinimumDurations := by
  refine ⟨fun i s t h hok => minDuration_of_ok h hok, fun s t h hok hEn hPost hSettle => ?_⟩
  obtain ⟨evs, htrace, hduration⟩ := minDuration_of_ok h hok
  rw [htrace, minDuration_append, hduration, hEn, hPost, hSettle, strobesSent_init, if_pos rfl]
  cases s.cfg.ww <;> simp only [nibblesSent] <;> omega

/-! ### One request at a time (R209) -/

/-- A busy encoder refuses every micro-sequence presented to it. -/
theorem request_of_busy {s : State} (hs : s.seq ≠ .idle) (body : List Stmt) : request body s = .refused .busy := by
  cases hseq : s.seq with
  | idle => exact absurd hseq hs
  | running rest => simp only [request, hseq]

/-- A busy encoder refuses every instruction but `TEXT` as busy (the length of a text is checked first). -/
theorem exec_of_busy {i : Instr} {s : State} (hs : s.seq ≠ .idle) (hi : ∀ row col chars, i ≠ .text row col chars) :
    exec i s = .refused .busy := by
  cases i with
  | text row col chars => exact absurd rfl (hi row col chars)
  | _ => exact request_of_busy hs _

/-- An instruction that answers a next state found the encoder idle. -/
theorem idle_of_exec_next {i : Instr} {s t : State} (h : exec i s = .next t) : s.seq = .idle := by
  obtain ⟨-, -, -, hidle, -⟩ := exec_frame h
  exact hidle

/-- A step of a busy encoder finishes the request in progress: one response, `SEQ` idle, the port as it was. -/
theorem step_of_busy {s t : State} (hs : s.seq ≠ .idle) (h : step s = .next t) :
    t.port = s.port ∧ t.seq = .idle ∧ ∃ r, t.responses = s.responses ++ [r] := by
  cases hseq : s.seq with
  | idle => exact absurd hseq hs
  | running xs =>
    rw [step_of_running hseq] at h
    obtain ⟨u, r, hext, rfl⟩ := complete_next h
    exact ⟨hext.port, rfl, r, rfl⟩

/-- An idle encoder with nothing presented waits. -/
theorem step_of_nothing_presented {s : State} (hs : s.seq = .idle) (hport : s.port = []) : step s = .next s := by
  simp only [step, take, hs, hport]

/-- Settles O34: by the two values of `SEQ`. -/
theorem busyEncoderAcceptsNothing : Obligations.BusyEncoderAcceptsNothing :=
  ⟨fun _ _ hs hi => exec_of_busy hs hi, fun _ _ _ hs h => hs (idle_of_exec_next h), fun _ _ hs h => step_of_busy hs h,
    fun _ hs hport => step_of_nothing_presented hs hport⟩

/-! ### Reset and the invariant (R190, R191; 00_scope.md R8) -/

/-- Before the first bus write nothing is known of the bridge chip's output (R191). -/
theorem busOutput_nil : busOutput [] = none := rfl

/-- Settles O48: field by field, by the laws of the two resets. -/
theorem resetState : Obligations.ResetState := by
  refine ⟨fun p => ?_, fun c s => ?_, resetWith_disp _, ?_⟩
  · exact ⟨resetWith_cfg p, resetWith_disp p, resetWith_bl p, resetWith_seq p, resetWith_trace p, busOutput_nil⟩
  · exact ⟨applyReset_cfg s c, applyReset_disp s c, applyReset_bl s c, applyReset_seq s c, applyReset_trace s c⟩
  · rw [Params.standardEncoding]; rfl

/-- After reset nothing has been sent, so the invariant asks for well-formed parameters only. -/
theorem inv_resetWith {p : Params} (hw : p.wf = true) : Inv (State.resetWith p) where
  params_wf := hw
  cfg_straps := rfl
  seq_idle := rfl
  one_address := by simp [oneAddress]
  read_write_low := by simp [readWriteLow]

/-- R8 speaks of the overlay bits and of the opcode bases only. -/
theorem wf_congr {p q : Params} (hbits : p.overlayBits = q.overlayBits) (hbases : p.bases = q.bases) : p.wf = q.wf := by
  simp only [Params.wf, Params.overlaysDistinct, Params.overlaysLow, Params.basesDistinct, hbits, hbases]

/-- The default encoding satisfies R8, whatever the times, the address, the straps and the reset values are. -/
theorem wf_of_standardEncoding {p : Params} (h : p.standardEncoding) : p.wf = true := by
  have hbits : p.overlayBits = Params.standard.overlayBits := by rw [h]; rfl
  have hbases : p.bases = Params.standard.bases := by rw [h]; rfl
  have hdefaults : Params.standard.wf = true := by decide
  exact (wf_congr hbits hbases).trans hdefaults

/-- Settles O49: `inv_resetWith`, and the masks of the default encoding. -/
theorem invariantHoldsAtReset : Obligations.InvariantHoldsAtReset :=
  ⟨fun _ => inv_resetWith, fun _ => wf_of_standardEncoding⟩

end Sys2Proof.Machine
end

section
/-! PROOF. The family 93_implementation_defined.md: a write that never gets an answer (U9), and a text longer than a bounded
`TEXT_MAX` (U15). -/

namespace Sys2Proof.Machine

/-! ### The silent bus (U9) -/

/-- With any other bus an accepted instruction hangs at write `n` of the same events, if that is the first write not acknowledged
and it gets no answer. -/
theorem exec_hung_withBus {i : Instr} {s : State} (h : Ready i s) {b : Bus} {n : Nat}
    (hn : n < writeCount (instrTrace i (s.assign i))) (hok : b.okFor n = true) (hsilent : (b.skip n).answer = .silent) :
    exec i { s with bus := b } = .fault .busNeverAnswers := by
  have hevents : instrTrace i (State.assign { s with bus := b } i) = instrTrace i (s.assign i) :=
    instrTrace_congr rfl rfl rfl rfl
  exact exec_hung (s := { s with bus := b }) h (hevents ▸ hn) hok hsilent

/-- Settles O30: the bus leaves without an answer write `n` of the events that the acknowledged run performs. -/
theorem silentBusIsStuck : Obligations.SilentBusIsStuck := by
  intro i s t evs n later rest h htrace hn
  obtain ⟨hready, rfl⟩ := exec_acknowledged h
  obtain rfl : instrTrace i (s.assign i) = evs := List.append_cancel_left htrace
  exact exec_hung_withBus hready hn (okFor_replicate _ _ _) (by rw [skip_replicate]; rfl)

/-! ### The bound on a text (U15) -/

theorem textFits_bounded (m : Nat) (chars : List Byte) : textFits (some m) chars = true ↔ chars.length ≤ m :=
  decide_eq_true_iff

/-- The length is checked before `SEQ`, so a text that does not fit is refused for its length by a busy encoder too. -/
theorem exec_text_of_not_fits {s : State} {chars : List Byte} (h : ¬ textFits s.params.textMax chars = true) (row col : Byte) :
    exec (.text row col chars) s = .refused .textTooLong :=
  if_neg h

/-- Settles O9: a text of more characters than the bound does not fit. -/
theorem longTextIsRefused : Obligations.LongTextIsRefused := by
  intro s row col chars m _ hmax hlong
  have hfit : ¬ textFits s.params.textMax chars = true := by
    rw [hmax, textFits_bounded]
    exact Nat.not_le.mpr hlong
  exact exec_text_of_not_fits hfit row col

end Sys2Proof.Machine
end
